-- ==== Sys2Proof/Word.lean ====
section
/-! DEFINITION. The widths of the machine's values: bytes, 16-bit words, and the index of a general register. -/

namespace Sys2Proof

/-- An 8-bit value: a general register, a timer, a byte of memory (10_state.md R8, R15, R16). -/
abbrev Byte := BitVec 8

/-- A 16-bit value: `I`, `PC`, a stack entry, an instruction word (10_state.md R11, R12, R14; 30_encoding.md R38). -/
abbrev Word := BitVec 16

/-- A 12-bit immediate address `NNN` (30_encoding.md R39). -/
abbrev Addr12 := BitVec 12

/-- The index of a general register, `V[0]` to `V[15]`: a 4-bit field, so never out of range (10_state.md R8). -/
abbrev Reg := Fin 16

end Sys2Proof
end

