-- ==== Sys2Proof/Config.lean ====
section
/-! DEFINITION. The fixed sizes of 00_scope.md R5, and the one parameter whose value the spec does not give, `FONT`. -/

namespace Sys2Proof.Config

/-- `MEM_LEN`: bytes of memory, valid addresses 0x000 to 0xFFF (00_scope.md R5). -/
@[simp] abbrev memLen : Nat := 4096

/-- `PROG_BASE`: first byte of a loaded program, and `PC` after reset (00_scope.md R5). -/
@[simp] abbrev progBase : Nat := 0x200

/-- `MAX_PROG_LEN` = `MEM_LEN - PROG_BASE` (00_scope.md R5, 20_memory.md R34). -/
@[simp] abbrev maxProgLen : Nat := 3584

/-- `FONT_BASE`: first byte of the font set (00_scope.md R5). -/
@[simp] abbrev fontBase : Nat := 0

/-- `FONT_LEN`: bytes of the font set (00_scope.md R5). -/
@[simp] abbrev fontLen : Nat := 80

/-- `FB_W`: framebuffer columns (00_scope.md R5). -/
@[simp] abbrev fbW : Nat := 64

/-- `FB_H`: framebuffer rows (00_scope.md R5). -/
@[simp] abbrev fbH : Nat := 32

/-- `FB_LEN` = `FB_W * FB_H`: framebuffer cells, linear index 0 to 2047 (00_scope.md R5). -/
@[simp] abbrev fbLen : Nat := 2048

/-- `SPRITE_W`: sprite columns (00_scope.md R5). -/
@[simp] abbrev spriteW : Nat := 8

/-- `STACK_DEPTH`: stack entries (00_scope.md R5). -/
@[simp] abbrev stackDepth : Nat := 16

/-- `INSTR_LEN`: bytes per instruction (00_scope.md R5, 30_encoding.md R38). -/
@[simp] abbrev instrLen : Nat := 2

/-- `FONT`, the 80-byte built-in font set (00_scope.md R6). UNVERIFIED: its byte values are in no source (D19 OPEN, N1, U9
'parameter'), so it is a constant without a body and every theorem holds for every font (assumption log 1, safe). -/
opaque font : Vector Byte 80

end Sys2Proof.Config
end

