-- ==== Sys2Proof/Syntax.lean ====
section
/-! DEFINITION. The instruction set: seven constructors, one per row of spec/opcode_table.json (00_scope.md R2). -/

namespace Sys2Proof

/-- The seven instructions of 30_encoding.md R44. Operand types are the widths of the fields they come from
(30_encoding.md R39, R41), so every operand value an encoding admits is a value here and no other is.

`cls` and `ret` carry the eight bits 11..4 that the decoder ignores (30_encoding.md R43). No effect depends on them; they
are kept because a fault report carries the whole instruction word `op` (60_exceptions.md R67; assumption log 4). -/
inductive Instr where
  /-- `CLS` (0x0ab0, canonical 0x00E0): clear screen. -/
  | cls (ign : BitVec 8)
  /-- `RET` (0x0abE, canonical 0x00EE): return. -/
  | ret (ign : BitVec 8)
  /-- `JP NNN` (0x1NNN): jump. -/
  | jp (nnn : Addr12)
  /-- `LD Vx, NN` (0x6XNN): load immediate. -/
  | ldV (x : Reg) (nn : Byte)
  /-- `ADD Vx, NN` (0x7XNN): add immediate. -/
  | addV (x : Reg) (nn : Byte)
  /-- `LD I, NNN` (0xANNN): load index. -/
  | ldI (nnn : Addr12)
  /-- `DRW Vx, Vy, N` (0xDXYN): draw sprite. -/
  | drw (x y : Reg) (n : BitVec 4)
  deriving DecidableEq, Repr

end Sys2Proof
end

