-- ==== Sys2Proof/WellFormed.lean ====
section
/-! DEFINITION. What can be ill-formed before it reaches the machine: a line of assembler source, whose operands are plain
numbers with the ranges of 30_encoding.md R47, and a program image, whose length is bounded (20_memory.md R34). An `Instr`
needs no check of its own: its operand types are exactly the ranges of its fields. -/

namespace Sys2Proof

/-- One line of assembler source (30_encoding.md R47): operands are plain numbers, so a line can be ill-formed.
`db` is the data byte, not an instruction. PRESUMED: the mnemonics are the customary ones (G2, D14; assumption log 11). -/
inductive AsmLine where
  | cls
  | ret
  | jp (nnn : Nat)
  | ldV (x nn : Nat)
  | addV (x nn : Nat)
  | ldI (nnn : Nat)
  | drw (x y n : Nat)
  | db (b : Nat)
  deriving DecidableEq, Repr

/-- The operand ranges of 30_encoding.md R47. -/
def AsmLine.wf : AsmLine → Bool
  | .cls => true
  | .ret => true
  | .jp nnn => decide (nnn ≤ 0xFFF)
  | .ldV x nn => decide (x ≤ 0xF) && decide (nn ≤ 0xFF)
  | .addV x nn => decide (x ≤ 0xF) && decide (nn ≤ 0xFF)
  | .ldI nnn => decide (nnn ≤ 0xFFF)
  | .drw x y n => decide (x ≤ 0xF) && decide (y ≤ 0xF) && decide (n ≤ 0xF)
  | .db b => decide (b ≤ 0xFF)

/-- A program image `LoadProgram` accepts: at most `MAX_PROG_LEN` bytes (20_memory.md R34). -/
def imageWf (bytes : List Byte) : Bool := decide (bytes.length ≤ Config.maxProgLen)

end Sys2Proof
end

