-- ==== Sys2Proof/Decode.lean ====
section
/-! DEFINITION. Bit fields, the decoder (total, rejecting by name), the encoder, the opcode map as a table, and the
assembler of 30_encoding.md R47. -/

namespace Sys2Proof

/-! ### Fields of the instruction word (30_encoding.md R39) -/

/-- `F = op[15:12]`, the family. -/
def fieldF (op : Word) : BitVec 4 := op.extractLsb' 12 4

/-- `X = op[11:8]`, a register index. -/
def fieldX (op : Word) : Reg := ⟨(op.extractLsb' 8 4).toNat, (op.extractLsb' 8 4).isLt⟩

/-- `Y = op[7:4]`, a register index. -/
def fieldY (op : Word) : Reg := ⟨(op.extractLsb' 4 4).toNat, (op.extractLsb' 4 4).isLt⟩

/-- `N = op[3:0]`, the sprite height in `DRW`, the sub-opcode in family 0. -/
def fieldN (op : Word) : BitVec 4 := op.extractLsb' 0 4

/-- `NN = op[7:0]`, the immediate byte. -/
def fieldNN (op : Word) : Byte := op.extractLsb' 0 8

/-- `NNN = op[11:0]`, the immediate address. -/
def fieldNNN (op : Word) : Addr12 := op.extractLsb' 0 12

/-- Bits 11..4, which the decoder ignores in family 0 (30_encoding.md R43). -/
def fieldIgn (op : Word) : BitVec 8 := op.extractLsb' 4 8

/-! ### Decode (30_encoding.md R42) -/

/-- `Decode(op)`; `none` is the spec's `UNKNOWN`. -/
def decodeWord (op : Word) : Option Instr :=
  match (fieldF op).toNat with
  | 0x0 =>
    match (fieldN op).toNat with
    | 0x0 => some (.cls (fieldIgn op))
    | 0xE => some (.ret (fieldIgn op))
    | _ => none
  | 0x1 => some (.jp (fieldNNN op))
  | 0x6 => some (.ldV (fieldX op) (fieldNN op))
  | 0x7 => some (.addV (fieldX op) (fieldNN op))
  | 0xA => some (.ldI (fieldNNN op))
  | 0xD => some (.drw (fieldX op) (fieldY op) (fieldN op))
  | _ => none

/-- `hi ++ lo`: the word of two consecutive bytes, high byte first (20_memory.md R28, R30). -/
def wordOfBytes (hi lo : Byte) : Word := hi ++ lo

/-- The high byte of a word, the one at the lower address (20_memory.md R30). -/
def highByte (w : Word) : Byte := w.extractLsb' 8 8

/-- The low byte of a word, the one at the higher address (20_memory.md R30). -/
def lowByte (w : Word) : Byte := w.extractLsb' 0 8

/-- What decoding a byte stream answers: an instruction and the rest of the stream, or a rejection by name. -/
inductive DecodeResult where
  /-- One of the seven instructions, and the bytes after it. -/
  | instr (i : Instr) (rest : List Byte)
  /-- The first word is in the unknown space (30_encoding.md R45). -/
  | unknownOpcode (op : Word)
  /-- Fewer than the two bytes of an instruction (30_encoding.md R38). -/
  | truncated
  deriving DecidableEq, Repr

/-- Decode the instruction at the head of a byte stream: every instruction is two bytes, big-endian (30_encoding.md R38). -/
def decodeBytes : List Byte → DecodeResult
  | hi :: lo :: rest =>
    match decodeWord (wordOfBytes hi lo) with
    | some i => .instr i rest
    | none => .unknownOpcode (wordOfBytes hi lo)
  | _ => .truncated

/-! ### Encode (30_encoding.md R40, R44) -/

/-- The four bits of a register index. -/
def regBits (x : Reg) : BitVec 4 := BitVec.ofNat 4 x.val

/-- The word of an instruction, from the formats Z, A, I and S of 30_encoding.md R40. -/
def encode : Instr → Word
  | .cls ign => 0x0#4 ++ ign ++ 0x0#4
  | .ret ign => 0x0#4 ++ ign ++ 0xE#4
  | .jp nnn => 0x1#4 ++ nnn
  | .ldV x nn => 0x6#4 ++ regBits x ++ nn
  | .addV x nn => 0x7#4 ++ regBits x ++ nn
  | .ldI nnn => 0xA#4 ++ nnn
  | .drw x y n => 0xD#4 ++ regBits x ++ regBits y ++ n

/-- The two bytes of an instruction as memory holds them, high byte first (20_memory.md R30). -/
def encodeBytes (i : Instr) : List Byte := [highByte (encode i), lowByte (encode i)]

/-! ### The opcode map (30_encoding.md R44) -/

/-- One row of the opcode map: a word selects it when `op AND mask = pattern` (the table's `match`). -/
structure OpcodeRow where
  mnemonic : String
  mask : Word
  pattern : Word
  deriving DecidableEq, Repr

/-- The seven rows of 30_encoding.md R44. -/
def opcodeMap : List OpcodeRow :=
  [ ⟨"CLS", 0xF00F#16, 0x0000#16⟩, ⟨"RET", 0xF00F#16, 0x000E#16⟩, ⟨"JP", 0xF000#16, 0x1000#16⟩,
    ⟨"LD_V", 0xF000#16, 0x6000#16⟩, ⟨"ADD_V", 0xF000#16, 0x7000#16⟩, ⟨"LD_I", 0xF000#16, 0xA000#16⟩,
    ⟨"DRW", 0xF000#16, 0xD000#16⟩ ]

/-- The word selects the row (30_encoding.md R44). -/
def OpcodeRow.selects (row : OpcodeRow) (op : Word) : Bool := op &&& row.mask == row.pattern

/-- The mnemonic an instruction has in spec/opcode_table.json. -/
def Instr.mnemonic : Instr → String
  | .cls _ => "CLS"
  | .ret _ => "RET"
  | .jp _ => "JP"
  | .ldV _ _ => "LD_V"
  | .addV _ _ => "ADD_V"
  | .ldI _ => "LD_I"
  | .drw _ _ _ => "DRW"

/-! ### The assembler (30_encoding.md R47) -/

/-- The word an instruction line encodes, by the arithmetic of 30_encoding.md R47's table; `none` for a data byte. -/
def AsmLine.word : AsmLine → Option Word
  | .cls => some 0x00E0#16
  | .ret => some 0x00EE#16
  | .jp nnn => some (BitVec.ofNat 16 (0x1000 + nnn))
  | .ldV x nn => some (BitVec.ofNat 16 (0x6000 + x * 256 + nn))
  | .addV x nn => some (BitVec.ofNat 16 (0x7000 + x * 256 + nn))
  | .ldI nnn => some (BitVec.ofNat 16 (0xA000 + nnn))
  | .drw x y n => some (BitVec.ofNat 16 (0xD000 + x * 256 + y * 16 + n))
  | .db _ => none

/-- The bytes of a line: a word high byte first, or the data byte (30_encoding.md R47); `none` for an ill-formed line. -/
def AsmLine.bytes (l : AsmLine) : Option (List Byte) :=
  if l.wf then
    match l, l.word with
    | .db b, _ => some [BitVec.ofNat 8 b]
    | _, some w => some [highByte w, lowByte w]
    | _, none => none
  else none

/-- The program image of a listing; `none` if a line is ill-formed. -/
def assemble : List AsmLine → Option (List Byte)
  | [] => some []
  | l :: ls =>
    match l.bytes, assemble ls with
    | some b, some bs => some (b ++ bs)
    | _, _ => none

/-! ### The host's view of the decoder -/

/-- The instruction the decoder reads from the table word `w` of `nbits` bits: the word's bytes are laid out as memory holds
them, the high byte at the lower address, and decoded (20_memory.md R28). -/
def decodeTableWord (nbits w : Nat) : Option Instr :=
  match decodeBytes [highByte (BitVec.ofNat 16 (w % 2 ^ nbits)), lowByte (BitVec.ofNat 16 (w % 2 ^ nbits))] with
  | .instr i _ => some i
  | .unknownOpcode _ => none
  | .truncated => none

end Sys2Proof
end

