-- ==== Sys2Proof/Machine/State.lean ====
section
/-! DEFINITION. The machine's state (10_state.md R20: exactly eleven elements), the faults of 60_exceptions.md R67, and the
state after `PowerOn`. -/

namespace Sys2Proof.Machine

/-- `MEM[0..4095]` (10_state.md R16) as plain data: the bytes that differ from the reset contents, in canonical form. -/
abbrev Memory := List Host.Cell

/-- What an unlisted address reads as: the reset contents of 10_state.md R21, `FONT` in 0x000..0x04F and zero above
(assumption log 2). -/
def Memory.initial (a : Nat) : Byte :=
  if h : a < 80 then Config.font[a] else 0x00#8

/-- The canonical form: addresses strictly rising. -/
def Memory.rising : Memory → Bool
  | [] => true
  | [_] => true
  | (a, _) :: (b, y) :: m => decide (a < b) && Memory.rising ((b, y) :: m)

/-- Well-formed memory: addresses strictly rising, each below `MEM_LEN`, and no entry equal to what its address reads as
when unlisted. Equal memories are then equal data. -/
def Memory.wf (m : Memory) : Bool :=
  m.rising && m.all fun cell => decide (cell.1 < Config.memLen) && !decide (cell.2 = Memory.initial cell.1)

/-- `FB[0..2047]` (10_state.md R17): 2048 one-bit cells, bit `k` is the cell of linear index `k`. DESIGN CHOICE: held as one
bit vector so that two framebuffers can be compared (assumption log 3, safe). -/
abbrev Framebuffer := BitVec 2048

/-- The cell of linear index `k`. -/
def Framebuffer.cell (fb : Framebuffer) (k : Nat) : Bool := fb.getLsbD k

/-- The cell at column `x`, row `y`: "row-major, index = x + y*64" (10_state.md R17). -/
def Framebuffer.pixel (fb : Framebuffer) (x y : Nat) : Bool := fb.cell (x + y * Config.fbW)

/-- The state of the CORE: the eleven elements of 10_state.md R20 and nothing else. -/
structure State where
  /-- `V[0..15]` (10_state.md R8). -/
  v : Vector Byte 16
  /-- `I`, the index register (10_state.md R11). -/
  i : Word
  /-- `PC`, the address of the instruction being executed (10_state.md R12). -/
  pc : Word
  /-- `SP`, the number of stack entries in use, 0 to 16 (10_state.md R13; D11 "best: make the type Fin 17"). -/
  sp : Fin 17
  /-- `STACK[0..15]` (10_state.md R14). -/
  stack : Vector Word 16
  /-- `DT`, the delay timer (10_state.md R15). -/
  dt : Byte
  /-- `ST`, the sound timer (10_state.md R15). -/
  st : Byte
  /-- `MEM[0..4095]` (10_state.md R16). -/
  mem : Memory
  /-- `FB[0..2047]` (10_state.md R17). -/
  fb : Framebuffer
  /-- `KEYS[0..15]`, true = down (10_state.md R18, D10). -/
  keys : Vector Bool 16
  /-- `DRAW`, the draw flag (10_state.md R19). -/
  draw : Bool
  deriving DecidableEq, Repr

/-- Which access went out of memory (60_exceptions.md R71): the two kinds of `MemoryOutOfBounds`. -/
inductive MemAccess where
  /-- Kind `FETCH`: no instruction word exists yet. -/
  | fetch
  /-- Kind `SPRITE`: a row read of `DRW`, whose word is `op`. -/
  | sprite (op : Word)
  deriving DecidableEq, Repr

/-- The complete list of faults (60_exceptions.md R67). Each is the spec's own fault with the spec's own condition, so
stopping with it is exact; where the source left the policy open the spec chose the fault (D1, D4, D5), which is safe. -/
inductive Fault where
  /-- Code 1, raised by the decode phase of a cycle on a word that is none of the seven instructions (R68). Safe (D1). -/
  | unknownOpcode (op pc : Word)
  /-- Code 2, raised by `Push` on a full stack; no instruction of this hardware pushes (R70). Safe. -/
  | stackOverflow (pc op : Word)
  /-- Code 3, raised by `RET` on an empty stack (R69). Safe. -/
  | stackUnderflow (pc op : Word)
  /-- Code 4, raised by the fetch and by `DRW`'s row reads on a byte address above 0x0FFF, a natural number (R71). Safe (D4). -/
  | memoryOutOfBounds (access : MemAccess) (addr : Nat) (pc : Word)
  /-- Code 5, raised by `DRW` on a set sprite bit whose linear index is above 2047 (R72). Safe (D5). -/
  | framebufferOutOfBounds (idx : Nat) (pc op : Word)
  /-- Code 6, raised by `LoadProgram` on a sequence longer than 3584 bytes; never by a cycle (R73). Safe. -/
  | loadError (len : Nat)
  deriving DecidableEq, Repr

/-- The codes of 60_exceptions.md R67 (D13). -/
def Fault.code : Fault → Nat
  | .unknownOpcode _ _ => 1
  | .stackOverflow _ _ => 2
  | .stackUnderflow _ _ => 3
  | .memoryOutOfBounds _ _ _ => 4
  | .framebufferOutOfBounds _ _ _ => 5
  | .loadError _ => 6

/-- Reasons to refuse. Every instruction of this hardware has its meaning and every state has one, so nothing raises one. -/
inductive Refusal where
  /-- An instruction without a meaning yet, raised only by an arm of `exec` that rejects it by name; there is none. Safe. -/
  | notModelled (mnemonic : String)
  deriving DecidableEq, Repr

/-- The machine right after reset: the column "after `PowerOn`" of 10_state.md R21. No memory byte is listed, so memory reads
as `FONT` in 0x000..0x04F and zero above. -/
def State.reset : State where
  v := Vector.replicate 16 0x00#8
  i := 0x0000#16
  pc := 0x0200#16
  sp := 0
  stack := Vector.replicate 16 0x0000#16
  dt := 0x00#8
  st := 0x00#8
  mem := []
  fb := 0#2048
  keys := Vector.replicate 16 false
  draw := false

end Sys2Proof.Machine
end

