-- ==== Sys2Proof/Machine/Ops.lean ====
section
/-! DEFINITION. The named operations over registers, stack and memory that every meaning is built from, and raising a
fault (the hardware's only exception: 60_exceptions.md R75). -/

namespace Sys2Proof.Machine

/-- The three outcomes of a step of this machine. -/
abbrev Result := Host.Outcome State Fault Refusal

/-! ### Registers (10_state.md R8, R11 to R13, R15) -/

/-- `V[x]`. No register is hardwired (10_state.md R9). -/
def State.reg (s : State) (x : Reg) : Byte := s.v[x.val]

/-- `V[x] <- b`. -/
def State.setReg (s : State) (x : Reg) (b : Byte) : State := { s with v := s.v.set x.val b }

/-- `I <- w`. -/
def State.setI (s : State) (w : Word) : State := { s with i := w }

/-- `PC <- w`. -/
def State.setPc (s : State) (w : Word) : State := { s with pc := w }

/-- `PC <- (PC + 2) mod 2^16`, the last action of a non-branching instruction (40_cycle.md R49). -/
def State.advance (s : State) : State := s.setPc (s.pc + 2#16)

/-- `SP <- n`. -/
def State.setSp (s : State) (n : Fin 17) : State := { s with sp := n }

/-- `DT <- d; ST <- t`. -/
def State.setTimers (s : State) (d t : Byte) : State := { s with dt := d, st := t }

/-- `FB <- fb`. -/
def State.setFb (s : State) (fb : Framebuffer) : State := { s with fb := fb }

/-- `DRAW <- b`. -/
def State.setDraw (s : State) (b : Bool) : State := { s with draw := b }

/-- `KEYS[k]`. -/
def State.key (s : State) (k : Fin 16) : Bool := s.keys[k.val]

/-- `KEYS[k] <- b`. -/
def State.setKey (s : State) (k : Fin 16) (b : Bool) : State := { s with keys := s.keys.set k.val b }

/-! ### Faults (60_exceptions.md R75) -/

/-- `raise Fault(info)`: the operation ends with the fault. There is no handler, vector, saved register or mode in this
hardware, and no state is changed: the result carries no next state, the state stays what it was (40_cycle.md R50, R75). -/
def raise (f : Fault) : Result := .fault f

/-! ### The stack (10_state.md R13, R14; 41_control_transfer.md R56) -/

/-- `STACK[j]`. -/
def State.stackAt (s : State) (j : Fin 16) : Word := s.stack[j.val]

/-- `STACK[j] <- w`. -/
def State.setStack (s : State) (j : Fin 16) (w : Word) : State := { s with stack := s.stack.set j.val w }

/-- `Push()`: store `PC`, the address of the invoking instruction, then move the pointer up; `StackOverflow` on a full stack.
`op` is the invoking instruction's word. No instruction of this hardware invokes it (41_control_transfer.md R56, R57). -/
def push (op : Word) (s : State) : Result :=
  if h : s.sp.val < 16 then
    .next ((s.setStack ⟨s.sp.val, h⟩ s.pc).setSp ⟨s.sp.val + 1, by omega⟩)
  else raise (.stackOverflow s.pc op)

/-- "pop decrements pointer then loads PC": the popped entry, which keeps its place in `STACK` (10_state.md R14, D17), and the
state with the pointer moved down; `StackUnderflow` on an empty stack. `op` is the popping instruction's word. -/
def pop (op : Word) (s : State) : Except Fault (Word × State) :=
  if h : s.sp.val = 0 then .error (.stackUnderflow s.pc op)
  else .ok (s.stackAt ⟨s.sp.val - 1, by omega⟩, s.setSp ⟨s.sp.val - 1, by omega⟩)

/-! ### Memory (20_memory.md) -/

/-- The byte at an address: the listed one, or what an unlisted address reads as. -/
def Memory.read : Memory → Nat → Byte
  | [], a => Memory.initial a
  | (k, b) :: m, a => if k = a then b else Memory.read m a

/-- The memory without an entry for `a`. -/
def Memory.erase : Memory → Nat → Memory
  | [], _ => []
  | (k, b) :: m, a => if k = a then Memory.erase m a else (k, b) :: Memory.erase m a

/-- The memory with the entry `(a, b)` in its place in the rising order. -/
def Memory.insert : Memory → Nat → Byte → Memory
  | [], a, b => [(a, b)]
  | (k, c) :: m, a, b =>
    if a < k then (a, b) :: (k, c) :: m
    else if a = k then (a, b) :: m
    else (k, c) :: Memory.insert m a b

/-- Write one byte and keep the canonical form: a byte equal to what the address reads as when unlisted is not listed. -/
def Memory.write (m : Memory) (a : Nat) (b : Byte) : Memory :=
  if b = Memory.initial a then m.erase a else m.insert a b

/-- `MemRead(addr, 1)`: the byte, or `MemoryOutOfBounds` above 0x0FFF; the address is a natural number, never masked or
wrapped (20_memory.md R27, R31). -/
def memRead1 (access : MemAccess) (addr : Nat) (s : State) : Except Fault Byte :=
  if addr < Config.memLen then .ok (s.mem.read addr)
  else .error (.memoryOutOfBounds access addr s.pc)

/-- `MemRead(addr, 2)`: the big-endian word of two byte reads in rising order, so the fault names the first byte out of range
(20_memory.md R28, R30, R33; 60_exceptions.md R71). -/
def memRead2 (access : MemAccess) (addr : Nat) (s : State) : Except Fault Word :=
  match memRead1 access addr s with
  | .error f => .error f
  | .ok hi =>
    match memRead1 access (addr + 1) s with
    | .error f => .error f
    | .ok lo => .ok (wordOfBytes hi lo)

/-- `MemWrite(addr, 1, v)`, defined on the addresses that exist, so it never faults (20_memory.md R29). -/
def memWrite (addr : Fin 4096) (b : Byte) (s : State) : State := { s with mem := s.mem.write addr.val b }

/-- The instruction fetch: the word at `PC`, at any alignment (20_memory.md R28, R32). -/
def fetch (s : State) : Except Fault Word := memRead2 .fetch s.pc.toNat s

end Sys2Proof.Machine
end

