-- ==== Sys2Proof/Machine/Operands.lean ====
section
/-! DEFINITION. The operand forms: immediates (30_encoding.md R41), and the sprite unit's geometry, the hardware's only data
addressing mode (43_display.md R64, R66). -/

namespace Sys2Proof.Machine

/-- `zext_16(NNN)` (30_encoding.md R41). -/
def zext16 (nnn : Addr12) : Word := nnn.setWidth 16

/-- The effective address of sprite row `r`: `I + r` on natural numbers, neither reduced nor masked (43_display.md R66, D18). -/
def rowAddr (i : Word) (r : Nat) : Nat := i.toNat + r

/-- Column `c` of a sprite row is bit `7 - c` of its byte: bit 7 is column 0 (43_display.md R63). -/
def spriteBit (rowBits : Byte) (c : Nat) : Bool := rowBits.getLsbD (7 - c)

/-- `idx = (ox + c) + (oy + r) * 64` on natural numbers: no wraparound, clamping or truncation (43_display.md R64, D18). -/
def cellIndex (ox oy r c : Nat) : Nat := (ox + c) + (oy + r) * Config.fbW

end Sys2Proof.Machine
end

