-- ==== Sys2Proof/Machine/Control.lean ====
section
/-! DEFINITION. Control transfer: RET and JP (41_control_transfer.md). Execute phase only (40_cycle.md R48). -/

namespace Sys2Proof.Machine

/-- RET (41_control_transfer.md R54): pop, then `PC <- (popped + 2) mod 2^16`; `StackUnderflow` if `SP = 0`. `ign` is the
instruction word's ignored middle byte, which only the fault report shows. -/
def execRet (ign : BitVec 8) (s : State) : Result :=
  match pop (encode (.ret ign)) s with
  | .error f => raise f
  | .ok (w, t) => .next (t.setPc (w + 2#16))

/-- JP NNN (41_control_transfer.md R55): `PC <- zext_16(NNN)`, no increment, target not validated. -/
def execJp (nnn : Addr12) (s : State) : Result := .next (s.setPc (zext16 nnn))

end Sys2Proof.Machine
end

