-- ==== Sys2Proof/Machine/Flags.lean ====
section
/-! DEFINITION. The flags: `V[15]` doubles as the collision flag and `DRAW` is the draw flag; the hardware has no other
(10_state.md R10, R19). -/

namespace Sys2Proof.Machine

/-- VF, the register the collision flag is written to (10_state.md R10). -/
def vf : Reg := 15

/-- The collision flag as the byte `V[15]` receives: 1 if a set cell was turned off, else 0 (43_display.md R63). -/
def collisionByte (hit : Bool) : Byte := if hit then 0x01#8 else 0x00#8

/-- `V[15] <- collision`. -/
def State.setCollision (s : State) (hit : Bool) : State := s.setReg vf (collisionByte hit)

/-- `DRAW <- 1`: set by every successful `CLS` and `DRW`, whether or not a cell changed (10_state.md R19, C7). -/
def State.raiseDraw (s : State) : State := s.setDraw true

end Sys2Proof.Machine
end

