-- ==== Sys2Proof/Machine/Sprite.lean ====
section
/-! DEFINITION. The sprite unit: the two passes of DRW over one scan, rows `r` ascending, then columns `c` ascending
(43_display.md R63). -/

namespace Sys2Proof.Machine

/-! ### Pass 1: validate; no state is written -/

/-- One cell of the scan: a *set* sprite bit whose index is beyond the framebuffer is `FramebufferOutOfBounds`; a 0 bit has
no target and is never checked. -/
def checkCell (op pc : Word) (ox oy r : Nat) (rowBits : Byte) (c : Nat) : Option Fault :=
  if Config.fbLen ≤ cellIndex ox oy r c then
    if spriteBit rowBits c then some (.framebufferOutOfBounds (cellIndex ox oy r c) pc op) else none
  else none

/-- One row of the scan: first the row's address, then its cells. -/
def checkRow (op : Word) (s : State) (ox oy r : Nat) : Option Fault :=
  match memRead1 (.sprite op) (rowAddr s.i r) s with
  | .error f => some f
  | .ok rowBits => (List.range Config.spriteW).findSome? (checkCell op s.pc ox oy r rowBits)

/-- Pass 1: the first violation in scan order, if any (60_exceptions.md R74). -/
def checkSprite (op : Word) (s : State) (ox oy h : Nat) : Option Fault :=
  (List.range h).findSome? (checkRow op s ox oy)

/-! ### Pass 2: commit; it cannot raise -/

/-- The target indices of one row's set bits, in scan order. -/
def rowTargets (rowBits : Byte) (ox oy r : Nat) : List Nat :=
  ((List.range Config.spriteW).filter (spriteBit rowBits)).map (cellIndex ox oy r)

/-- The target indices of the whole sprite, in scan order: the cells of 43_display.md R65's set `idx(T)`. -/
def spriteTargets (mem : Memory) (i : Word) (ox oy h : Nat) : List Nat :=
  (List.range h).flatMap fun r => rowTargets (mem.read (rowAddr i r)) ox oy r

/-- The framebuffer and the collision flag while the sprite is drawn. -/
structure Canvas where
  fb : Framebuffer
  hit : Bool
  deriving DecidableEq, Repr

/-- `FB[k] xor 1` (42_register_ops.md R61). -/
def toggleCell (fb : Framebuffer) (k : Nat) : Framebuffer := fb ^^^ (1#2048 <<< k)

/-- One set sprite bit: the collision flag is sticky, the cell is toggled. -/
def drawCell (cv : Canvas) (k : Nat) : Canvas := ⟨toggleCell cv.fb k, cv.hit || cv.fb.cell k⟩

/-- Pass 2: every target in scan order, from a clear collision flag. -/
def drawTargets (fb : Framebuffer) (targets : List Nat) : Canvas := targets.foldl drawCell ⟨fb, false⟩

end Sys2Proof.Machine
end

