-- ==== Sys2Proof/Machine/Display.lean ====
section
/-! DEFINITION. Display instructions: CLS and DRW (43_display.md). Execute phase only. -/

namespace Sys2Proof.Machine

/-- CLS (43_display.md R62): every framebuffer cell to 0, `DRAW <- 1`; `V[15]` is not written. -/
def execCls (s : State) : Result := .next ((s.setFb 0#2048).raiseDraw).advance

/-- DRW Vx, Vy, N (43_display.md R63): both coordinates are read before `V[15]` is written; every access is validated before
any state is written; then the sprite is XORed onto the framebuffer, `V[15]` receives the collision flag and `DRAW <- 1`. -/
def execDrw (x y : Reg) (n : BitVec 4) (s : State) : Result :=
  match checkSprite (encode (.drw x y n)) s (s.reg x).toNat (s.reg y).toNat n.toNat with
  | some f => raise f
  | none =>
    let cv := drawTargets s.fb (spriteTargets s.mem s.i (s.reg x).toNat (s.reg y).toNat n.toNat)
    .next (((s.setCollision cv.hit).setFb cv.fb).raiseDraw).advance

end Sys2Proof.Machine
end

