-- ==== Sys2Proof/Machine/RegisterOps.lean ====
section
/-! DEFINITION. Register loads and the immediate add: LD_V, ADD_V, LD_I (42_register_ops.md). Execute phase only. -/

namespace Sys2Proof.Machine

/-- LD Vx, NN (42_register_ops.md R58): `V[X] <- NN`; `V[15]` like any other. -/
def execLdV (x : Reg) (nn : Byte) (s : State) : Result := .next (s.setReg x nn).advance

/-- ADD Vx, NN (42_register_ops.md R59): `V[X] <- (V[X] + NN) mod 256`; no carry is written anywhere (C8). -/
def execAddV (x : Reg) (nn : Byte) (s : State) : Result := .next (s.setReg x (s.reg x + nn)).advance

/-- LD I, NNN (42_register_ops.md R60): `I <- zext_16(NNN)`. -/
def execLdI (nnn : Addr12) (s : State) : Result := .next (s.setI (zext16 nnn)).advance

end Sys2Proof.Machine
end

