-- ==== Sys2Proof/Machine/Timers.lean ====
section
/-! DEFINITION. The timer tick and the sound output (60_exceptions.md R80 to R82). -/

namespace Sys2Proof.Machine

/-- "decremented by exactly 1 per cycle tick while value > 0; never decremented below 0" (10_state.md R15). -/
def countdown (b : Byte) : Byte := if b = 0#8 then 0#8 else b - 1#8

/-- `Tick()`: the fourth phase of every cycle that reaches it (60_exceptions.md R81). -/
def tick (s : State) : State := s.setTimers (countdown s.dt) (countdown s.st)

/-- `sound_pre`: the value of `ST` after execute and before the tick's decrement (40_cycle.md R52). -/
def soundPre (s : State) : Byte := s.st

/-- "if it was exactly 1 before decrementing, this is the instant an external tone should fire" (60_exceptions.md R82). -/
def toneInstant (pre : Byte) : Bool := pre == 1#8

end Sys2Proof.Machine
end

