-- ==== Sys2Proof/Machine/Cycle.lean ====
section
/-! DEFINITION. The `Cycle` operation: fetch, decode, execute, timer tick (40_cycle.md R48). -/

namespace Sys2Proof.Machine

/-- `Ok(sound_pre)` and the state after the cycle (40_cycle.md R52). The result is not stored in the CORE (10_state.md R20). -/
structure CycleOk where
  soundPre : Byte
  after : State
  deriving DecidableEq, Repr

/-- The timer tick and the result, after an execute phase that ended in a next state; a phase that raised does not reach the
tick (40_cycle.md R50, C6). -/
def finish : Result → Host.Outcome CycleOk Fault Refusal
  | .next t => .next ⟨soundPre t, tick t⟩
  | .fault f => .fault f
  | .refused r => .refused r

/-- `Cycle()` (40_cycle.md R48). The phases run in order and the first fault ends the cycle (60_exceptions.md R74). -/
def cycle (s : State) : Host.Outcome CycleOk Fault Refusal :=
  match fetch s with
  | .error f => .fault f
  | .ok op =>
    match decodeWord op with
    | none => .fault (.unknownOpcode op s.pc)
    | some i => finish (exec i s)

/-- The state part of a cycle's result. -/
def cycleState : Host.Outcome CycleOk Fault Refusal → Result
  | .next r => .next r.after
  | .fault f => raise f
  | .refused r => .refused r

/-- Store the two bytes of `op` at `a` and `a + 1`, high byte first, where both addresses exist (20_memory.md R28, R29). -/
def storeWord (a : Nat) (op : Word) (s : State) : State :=
  if h : a + 1 < 4096 then memWrite ⟨a + 1, h⟩ (lowByte op) (memWrite ⟨a, by omega⟩ (highByte op) s) else s

end Sys2Proof.Machine
end

