-- ==== Sys2Proof/Machine/Step.lean ====
section
/-! DEFINITION. One step of the machine, which is one `Cycle`, and the placing of an instruction where it fetches. -/

namespace Sys2Proof.Machine

/-- One step: one `Cycle` (40_cycle.md R48; 92_eei_decisions.md D15 "One `Cycle` = one step of the model's step relation").
The interface's next state has no room for `sound_pre`, which `cycle` gives (assumption log 5). -/
def step (s : State) : Host.Outcome State Fault Refusal := cycleState (cycle s)

/-- `s` with the instruction `w` of `nbits` bits stored at `PC`, high byte at the lower address; bits above `nbits` are 0. It
stands for the load of a program (assumption log 10). If `PC > 0x0FFE` no fetchable place exists and nothing is stored. -/
def State.withFetchWord (s : State) (nbits w : Nat) : State :=
  storeWord s.pc.toNat (BitVec.ofNat 16 (w % 2 ^ nbits)) s

end Sys2Proof.Machine
end

