-- ==== Sys2Proof/Machine/HostOps.lean ====
section
/-! DEFINITION. The block's boundary: the nine atomic operations of 00_scope.md R4, and the reply of each. -/

namespace Sys2Proof.Machine

/-- `Reset` (70_reset_and_hazards.md R89): every element but `KEYS` and `DRAW` receives its constant. Memory with no byte
listed is `FONT` in 0x000..0x04F and zero above. -/
def resetOp (s : State) : State :=
  { s with
    v := Vector.replicate 16 0x00#8
    i := 0x0000#16
    pc := 0x0200#16
    sp := 0
    stack := Vector.replicate 16 0x0000#16
    dt := 0x00#8
    st := 0x00#8
    mem := []
    fb := 0#2048 }

/-- `PowerOn` (70_reset_and_hazards.md R88): clear `KEYS` and `DRAW`, then `Reset`. -/
def powerOn (s : State) : State := resetOp { s with keys := Vector.replicate 16 false, draw := false }

/-- Store the bytes at `a`, `a + 1`, … in increasing address order (20_memory.md R33, R34). -/
def writeBytes : (a : Nat) → (bytes : List Byte) → a + bytes.length ≤ 4096 → State → State
  | _, [], _, s => s
  | a, b :: bs, h, s =>
    writeBytes (a + 1) bs (by simp only [List.length_cons] at h; omega)
      (memWrite ⟨a, by simp only [List.length_cons] at h; omega⟩ b s)

/-- `LoadProgram(bytes)` (20_memory.md R34): the bytes at 0x200 onward, or `LoadError` when there are more than 3584, with no
byte written. Nothing else changes; bytes past the image keep their values (D22). -/
def loadProgram (bytes : List Byte) (s : State) : Result :=
  if h : bytes.length ≤ 3584 then
    .next (writeBytes Config.progBase bytes (by simp only [Config.progBase]; omega) s)
  else raise (.loadError bytes.length)

/-- `SetKey(k, v)` (60_exceptions.md R83); `k` is in 0..15 by its type (D24). -/
def setKeyOp (k : Fin 16) (down : Bool) (s : State) : State := s.setKey k down

/-- `ClearDrawFlag` (60_exceptions.md R84). -/
def clearDrawFlag (s : State) : State := s.setDraw false

/-- `ReadFramebuffer` (60_exceptions.md R85). -/
def readFramebuffer (s : State) : Framebuffer := s.fb

/-- `ReadDrawFlag` (60_exceptions.md R84). -/
def readDrawFlag (s : State) : Bool := s.draw

/-- `ReadSoundTimer` (60_exceptions.md R82). -/
def readSoundTimer (s : State) : Byte := s.st

/-- The operations at the block's boundary (00_scope.md R4). They are atomic and never overlap (R3; assumption log 9). -/
inductive HostOp where
  | powerOn
  | reset
  | loadProgram (bytes : List Byte)
  | cycle
  | setKey (k : Fin 16) (down : Bool)
  | clearDrawFlag
  | readFramebuffer
  | readDrawFlag
  | readSoundTimer
  deriving DecidableEq, Repr

/-- What an operation returns to the host. -/
inductive Reply where
  /-- The operation is done and returns nothing. -/
  | done
  /-- `Ok(sound_pre)` of a cycle (40_cycle.md R52). -/
  | ok (soundPre : Byte)
  /-- The framebuffer view. -/
  | framebuffer (fb : Framebuffer)
  /-- The draw flag view. -/
  | drawFlag (b : Bool)
  /-- The sound timer view. -/
  | soundTimer (b : Byte)
  /-- `Fault(kind, info)` (60_exceptions.md R67). -/
  | fault (f : Fault)
  /-- A refusal of the model; no operation gives it. -/
  | refused (r : Refusal)
  deriving DecidableEq, Repr

/-- The state after a cycle and its reply: a cycle that faults leaves the state as it was (40_cycle.md R50; assumption log 12). -/
def afterCycle (s : State) : Host.Outcome CycleOk Fault Refusal → State × Reply
  | .next r => (r.after, .ok r.soundPre)
  | .fault f => (s, .fault f)
  | .refused r => (s, .refused r)

/-- The state after a load and its reply: a rejected load leaves the state as it was (20_memory.md R34). -/
def afterLoad (s : State) : Result → State × Reply
  | .next t => (t, .done)
  | .fault f => (s, .fault f)
  | .refused r => (s, .refused r)

/-- One operation of the host: the state after it and what it returns (00_scope.md R4). -/
def hostStep (op : HostOp) (s : State) : State × Reply :=
  match op with
  | .powerOn => (powerOn s, .done)
  | .reset => (resetOp s, .done)
  | .loadProgram bytes => afterLoad s (loadProgram bytes s)
  | .cycle => afterCycle s (cycle s)
  | .setKey k down => (setKeyOp k down s, .done)
  | .clearDrawFlag => (clearDrawFlag s, .done)
  | .readFramebuffer => (s, .framebuffer (readFramebuffer s))
  | .readDrawFlag => (s, .drawFlag (readDrawFlag s))
  | .readSoundTimer => (s, .soundTimer (readSoundTimer s))

end Sys2Proof.Machine
end

