-- ==== Sys2Proof/Safety.lean ====
section
/-! DEFINITION. The terms claims are stated in: well-formed and reachable states, faulted and settled runs
(10_state.md R20; 70_reset_and_hazards.md R95, R97, R98). -/

namespace Sys2Proof.Machine

/-- A well-formed state. Every element is within its width by its type, `SP <= 16` too (10_state.md R20); what remains is the
model's own: the memory list is in canonical form. -/
abbrev State.Wf (s : State) : Prop := s.mem.wf = true

/-- The states the host can bring about: `PowerOn` from anything, then any host operations (70_reset_and_hazards.md R95). -/
inductive Reachable : State → Prop where
  | powerOn (s : State) : Reachable (Machine.powerOn s)
  | op (o : HostOp) {s : State} : Reachable s → Reachable (hostStep o s).1

/-- The facts of 70_reset_and_hazards.md R95 items 1 to 5, with the memory's canonical form. -/
structure ReachableFacts (s : State) : Prop where
  /-- Item 1: the stack is empty and all its entries are 0. -/
  sp_zero : s.sp = 0
  stack_zero : ∀ j : Fin 16, s.stackAt j = 0#16
  /-- Item 2: both timers are 0. -/
  dt_zero : s.dt = 0#8
  st_zero : s.st = 0#8
  /-- Item 3: `I <= 0x0FFF`. -/
  i_le : s.i.toNat ≤ 0xFFF
  /-- Item 4: below 0x200 memory reads as after reset. -/
  low_memory : ∀ a, a < Config.progBase → s.mem.read a = Memory.initial a
  /-- Item 5: `PC <= 0x1000`. -/
  pc_le : s.pc.toNat ≤ 0x1000
  /-- The memory list is in canonical form. -/
  mem_wf : s.Wf

/-- The instruction the next cycle executes: the word at `PC`, decoded; `none` if the fetch faults or the word is unknown. -/
def current (s : State) : Option Instr :=
  match fetch s with
  | .ok op => decodeWord op
  | .error _ => none

/-- `PC` points at a `JP` to its own address (70_reset_and_hazards.md R97 b). -/
def SelfJump (s : State) : Prop :=
  s.pc.toNat ≤ 0xFFE ∧ wordOfBytes (s.mem.read s.pc.toNat) (s.mem.read (s.pc.toNat + 1)) = 0x1000#16 + s.pc

/-- The next cycle faults: the run makes no further progress (70_reset_and_hazards.md R97 a). -/
def Faulted (s : State) : Prop := ∃ f, step s = .fault f

/-- A fixed point of `Cycle`: it succeeds and the next state is the current one (70_reset_and_hazards.md R98). -/
def FixedPoint (s : State) : Prop := step s = .next s

/-- The next state of an outcome, mapped; a fault or a refusal stays. For comparing two runs that differ in one element. -/
def mapNext (g : State → State) : Result → Result
  | .next t => .next (g t)
  | .fault f => .fault f
  | .refused r => .refused r

/-- The state with the elements no instruction can test, the timers, the key table and the draw flag, blanked
(60_exceptions.md R87). -/
def eraseDevices (s : State) : State :=
  { s with dt := 0#8, st := 0#8, keys := Vector.replicate 16 false, draw := false }

/-- `n` steps from `s`, stopping at the first fault or refusal (the host's `Core.run` on this machine). -/
def runFrom (n : Nat) (s : State) : Result := Host.Core.run core n s

/-- A run of `n` cycles free of faults. -/
def SafeRun (n : Nat) (s : State) : Prop := ∃ t, runFrom n s = .next t

end Sys2Proof.Machine
end

