-- ==== Sys2Proof/Certificates/Slice0/Obligations.lean ====
section
/-! DEFINITION. The statements for the provers, from the numbered rules of spec/. Where a statement rests on a choice the
spec marks `[decision: …]` or an inference it marks `[derived: …]`, its docstring names it and its basis is 'derived'. -/

open Sys2Proof Sys2Proof.Machine

/-! ### Encoding and decoding -/

/-- 30_encoding.md R39, whole: each field is its slice of the word, and the fields overlap as stated. -/
def Obligations.FieldsAreSlicesOfTheWord : Prop :=
  ∀ op : Word,
    fieldF op = op.extractLsb 15 12 ∧ (fieldX op).val = (op.extractLsb 11 8).toNat ∧
    (fieldY op).val = (op.extractLsb 7 4).toNat ∧ fieldN op = op.extractLsb 3 0 ∧
    fieldNN op = op.extractLsb 7 0 ∧ fieldNNN op = op.extractLsb 11 0 ∧
    (fieldNNN op).toNat = (fieldX op).val * 256 + (fieldY op).val * 16 + (fieldN op).toNat ∧
    (fieldNN op).toNat = (fieldY op).val * 16 + (fieldN op).toNat

/-- 30_encoding.md R42, whole: `Decode` is the case distinction on the top nibble and, in family 0, the bottom nibble, a total
function of the word alone. (The model keeps the ignored bits 11..4 in `cls` and `ret`, for the fault report only.) -/
def Obligations.DecodeFollowsTheNibbles : Prop :=
  ∀ op : Word,
    (op.toNat / 4096 = 0 → op.toNat % 16 = 0 → decodeWord op = some (.cls (op.extractLsb 11 4))) ∧
    (op.toNat / 4096 = 0 → op.toNat % 16 = 0xE → decodeWord op = some (.ret (op.extractLsb 11 4))) ∧
    (op.toNat / 4096 = 0 → op.toNat % 16 ≠ 0 → op.toNat % 16 ≠ 0xE → decodeWord op = none) ∧
    (op.toNat / 4096 = 0x1 → decodeWord op = some (.jp (op.extractLsb 11 0))) ∧
    (op.toNat / 4096 = 0x6 → decodeWord op = some (.ldV (Fin.ofNat 16 (op.toNat / 256)) (op.extractLsb 7 0))) ∧
    (op.toNat / 4096 = 0x7 → decodeWord op = some (.addV (Fin.ofNat 16 (op.toNat / 256)) (op.extractLsb 7 0))) ∧
    (op.toNat / 4096 = 0xA → decodeWord op = some (.ldI (op.extractLsb 11 0))) ∧
    (op.toNat / 4096 = 0xD →
      decodeWord op =
        some (.drw (Fin.ofNat 16 (op.toNat / 256)) (Fin.ofNat 16 (op.toNat / 16)) (op.extractLsb 3 0))) ∧
    (op.toNat / 4096 ∈ [0x2, 0x3, 0x4, 0x5, 0x8, 0x9, 0xB, 0xC, 0xE, 0xF] → decodeWord op = none)

/-- Words of the decode table of 95_test_vectors.md section 2.1, with the instruction each stands for. -/
def Obligations.TableWordsDecode : Prop :=
  decodeWord 0x00E0#16 = some (.cls 0x0E#8) ∧ decodeWord 0x0AB0#16 = some (.cls 0xAB#8) ∧
  decodeWord 0x00EE#16 = some (.ret 0x0E#8) ∧ decodeWord 0x0A5E#16 = some (.ret 0xA5#8) ∧
  decodeWord 0x1FFF#16 = some (.jp 0xFFF#12) ∧ decodeWord 0x6A05#16 = some (.ldV 10 0x05#8) ∧
  decodeWord 0x7FFF#16 = some (.addV 15 0xFF#8) ∧ decodeWord 0xA2F0#16 = some (.ldI 0x2F0#12) ∧
  decodeWord 0xD125#16 = some (.drw 1 2 5#4) ∧ decodeWord 0x00E1#16 = none ∧ decodeWord 0x2204#16 = none ∧
  decodeWord 0xFFFF#16 = none

/-- Headline: decoding an encoded instruction gives it back, every operand and every ignored bit at every value, as a word and
as the two bytes memory holds, whatever bytes follow. -/
def Obligations.DecodeOfEncodeIsIdentity : Prop :=
  ∀ (i : Instr) (rest : List Byte),
    decodeWord (encode i) = some i ∧ decodeBytes (encodeBytes i ++ rest) = .instr i rest

/-- Headline: a word that decodes is the encoding of what it decodes to, so no word has two meanings and no bit is dropped. -/
def Obligations.EncodeOfDecodeIsIdentity : Prop :=
  ∀ (op : Word) (i : Instr), decodeWord op = some i → encode i = op

/-- The decoder and the opcode map of 30_encoding.md R44 agree in both directions, and no two rows select one word. -/
def Obligations.DecoderAgreesWithOpcodeMap : Prop :=
  ∀ op : Word,
    (∀ row ∈ opcodeMap, row.selects op = true → ∃ i, decodeWord op = some i ∧ i.mnemonic = row.mnemonic) ∧
    (∀ i, decodeWord op = some i → ∃ row ∈ opcodeMap, row.selects op = true ∧ row.mnemonic = i.mnemonic) ∧
    (∀ row₁ ∈ opcodeMap, ∀ row₂ ∈ opcodeMap, row₁.selects op = true → row₂.selects op = true → row₁ = row₂)

/-- The assembler's lines of 30_encoding.md R47 (its notation is the spec's decision D14): an ill-formed line has no bytes; a
well-formed one is assembled to the bytes that decode to its instruction, operands at every value of their ranges. -/
def Obligations.AssembledLinesDecode : Prop :=
  ∀ l : AsmLine,
    (l.wf = false → l.bytes = none) ∧
    (l.wf = true →
      match l with
      | .cls => l.bytes = some [0x00#8, 0xE0#8] ∧ l.bytes.map decodeBytes = some (.instr (.cls 0x0E#8) [])
      | .ret => l.bytes = some [0x00#8, 0xEE#8] ∧ l.bytes.map decodeBytes = some (.instr (.ret 0x0E#8) [])
      | .jp nnn => l.bytes.map decodeBytes = some (.instr (.jp (BitVec.ofNat 12 nnn)) [])
      | .ldV x nn => l.bytes.map decodeBytes = some (.instr (.ldV (Fin.ofNat 16 x) (BitVec.ofNat 8 nn)) [])
      | .addV x nn => l.bytes.map decodeBytes = some (.instr (.addV (Fin.ofNat 16 x) (BitVec.ofNat 8 nn)) [])
      | .ldI nnn => l.bytes.map decodeBytes = some (.instr (.ldI (BitVec.ofNat 12 nnn)) [])
      | .drw x y n =>
        l.bytes.map decodeBytes = some (.instr (.drw (Fin.ofNat 16 x) (Fin.ofNat 16 y) (BitVec.ofNat 4 n)) [])
      | .db b => l.bytes = some [BitVec.ofNat 8 b])

/-! ### Memory access -/

/-- 20_memory.md R27 and R28, whole: a checked read answers the byte, or the two bytes as one big-endian word, when every byte
lies at or below 0x0FFF, and otherwise raises `MemoryOutOfBounds`. -/
def Obligations.CheckedReadsAnswerOrRaise : Prop :=
  ∀ (access : MemAccess) (addr : Nat) (s : State),
    (addr ≤ 0x0FFF → memRead1 access addr s = .ok (s.mem.read addr)) ∧
    (0x0FFF < addr → ∃ a pc, memRead1 access addr s = .error (.memoryOutOfBounds access a pc)) ∧
    (addr + 1 ≤ 0x0FFF →
      memRead2 access addr s =
        .ok (BitVec.ofNat 16 ((s.mem.read addr).toNat * 256 + (s.mem.read (addr + 1)).toNat))) ∧
    (0x0FFF < addr + 1 → ∃ a pc, memRead2 access addr s = .error (.memoryOutOfBounds access a pc))

/-- A cycle that starts with `PC > 0x0FFE` faults, naming the first byte out of range (60_exceptions.md R71, kind FETCH; the
fault is the spec's decision D4). -/
def Obligations.FetchOutsideMemoryFaults : Prop :=
  ∀ s : State, 0x0FFE < s.pc.toNat →
    step s = .fault (.memoryOutOfBounds .fetch (if 0x0FFF < s.pc.toNat then s.pc.toNat else 0x1000) s.pc)

/-- Memories in canonical form that read equal at every address are equal data (the model's own form: assumption log 2). -/
def Obligations.CanonicalMemoriesWithEqualBytesAreEqual : Prop :=
  ∀ m₁ m₂ : Memory, m₁.wf = true → m₂.wf = true → (∀ a, m₁.read a = m₂.read a) → m₁ = m₂

/-! ### The cycle -/

/-- A step runs the decoded instruction: when the big-endian word at `PC` decodes to `i`, the step is `exec i` followed by the
timer tick, and a fault or refusal of `exec i` is the step's. -/
def Obligations.StepRunsTheDecodedInstruction : Prop :=
  ∀ (s : State) (i : Instr),
    s.pc.toNat ≤ 0x0FFE →
    decodeWord (BitVec.ofNat 16 ((s.mem.read s.pc.toNat).toNat * 256 + (s.mem.read (s.pc.toNat + 1)).toNat)) = some i →
    step s =
      match exec i s with
      | .next t =>
        .next { t with
          dt := BitVec.ofNat 8 (t.dt.toNat - 1)
          st := BitVec.ofNat 8 (t.st.toNat - 1) }
      | .fault f => .fault f
      | .refused r => .refused r

/-- 40_cycle.md R48, whole: the four phases in order; the first that raises ends the cycle with its fault and the state as it
was before, the timers included; otherwise the result is `Ok(sound_pre)`, `ST` after execute and before the tick. -/
def Obligations.CycleRunsFourPhases : Prop :=
  ∀ s : State,
    (0x0FFE < s.pc.toNat →
      ∃ a, cycle s = .fault (.memoryOutOfBounds .fetch a s.pc) ∧
        hostStep .cycle s = (s, .fault (.memoryOutOfBounds .fetch a s.pc))) ∧
    (s.pc.toNat ≤ 0x0FFE →
      ∀ op : Word, op = BitVec.ofNat 16 ((s.mem.read s.pc.toNat).toNat * 256 + (s.mem.read (s.pc.toNat + 1)).toNat) →
        (decodeWord op = none →
          cycle s = .fault (.unknownOpcode op s.pc) ∧ hostStep .cycle s = (s, .fault (.unknownOpcode op s.pc))) ∧
        (∀ i, decodeWord op = some i →
          (∀ f, exec i s = .fault f → cycle s = .fault f ∧ hostStep .cycle s = (s, .fault f)) ∧
          (∀ t, exec i s = .next t →
            ∃ u : State,
              u = { t with
                dt := if 0 < t.dt.toNat then t.dt - 1#8 else t.dt
                st := if 0 < t.st.toNat then t.st - 1#8 else t.st } ∧
              cycle s = .next ⟨t.st, u⟩ ∧ hostStep .cycle s = (u, .ok t.st))))

/-- At a fetchable `PC` a cycle raises `UnknownOpcode` exactly on the words of 30_encoding.md R45 (failing fast there is the
spec's decision D1). -/
def Obligations.UnknownWordsFaultAndOnlyThey : Prop :=
  ∀ s : State, s.pc.toNat ≤ 0x0FFE →
    ∀ op : Word, op = BitVec.ofNat 16 ((s.mem.read s.pc.toNat).toNat * 256 + (s.mem.read (s.pc.toNat + 1)).toNat) →
      (step s = .fault (.unknownOpcode op s.pc) ↔
        op.toNat / 4096 ∈ [0x2, 0x3, 0x4, 0x5, 0x8, 0x9, 0xB, 0xC, 0xE, 0xF] ∨
          (op.toNat / 4096 = 0 ∧ op.toNat % 16 ∉ [0x0, 0xE]))

/-- 60_exceptions.md R78 (an inference the spec marks as its own): every cycle ends with `Ok` or one fault of codes 1, 3, 4, 5. -/
def Obligations.EveryCycleEndsInOkOrACycleFault : Prop :=
  ∀ s : State, (∃ r, cycle s = .next r) ∨ ∃ f, cycle s = .fault f ∧ f.code ∈ [1, 3, 4, 5]

/-- An operation that returns a fault changes no state (40_cycle.md R50, 20_memory.md R34; the spec's decision D2). -/
def Obligations.FaultingOperationChangesNothing : Prop :=
  ∀ (o : HostOp) (s : State) (f : Fault), (hostStep o s).2 = .fault f → (hostStep o s).1 = s

/-! ### Control transfer -/

/-- 41_control_transfer.md JP (its note on `NNN = 0xFFF` is an inference the spec marks): `PC` is replaced by the immediate,
nothing else changes, the target is not validated; the jump to 0xFFF succeeds and the cycle after it faults at its fetch. -/
def Obligations.JpReplacesPc : Prop :=
  (∀ (nnn : Addr12) (s : State), exec (.jp nnn) s = .next { s with pc := BitVec.ofNat 16 nnn.toNat }) ∧
  (∀ op : Word, op &&& 0xF000#16 = 0x1000#16 → decodeWord op = some (.jp (op.extractLsb 11 0))) ∧
  (∀ s t : State, exec (.jp 0xFFF#12) s = .next t → step t = .fault (.memoryOutOfBounds .fetch 0x1000 0x0FFF#16))

/-- 41_control_transfer.md RET, with entries and modulus as the spec decides (D7, D17): on a non-empty stack it completes with
the pointer moved down and `PC` two past the popped entry, which keeps its place; on an empty stack it faults. -/
def Obligations.RetPopsAndStepsPastTheCall : Prop :=
  (∀ (ign : BitVec 8) (s : State) (h : 0 < s.sp.val),
    ∃ t, exec (.ret ign) s = .next t ∧ t.sp.val = s.sp.val - 1 ∧
      t.pc = BitVec.ofNat 16 ((s.stack[s.sp.val - 1].toNat + 2) % 65536) ∧
      t = { s with sp := t.sp, pc := t.pc }) ∧
  (∀ (ign : BitVec 8) (s : State), s.sp.val = 0 →
    exec (.ret ign) s = .fault (.stackUnderflow s.pc (encode (.ret ign)))) ∧
  (∀ op : Word, op &&& 0xF00F#16 = 0x000E#16 → decodeWord op = some (.ret (op.extractLsb 11 4)))

/-- 60_exceptions.md R69, whole: a cycle that executes RET with `SP = 0` reports `StackUnderflow` with its own address and
word, and neither `SP` nor `PC` (nor anything else) changes. -/
def Obligations.RetOnEmptyStackIsReportedAndChangesNothing : Prop :=
  ∀ (s : State) (op : Word), s.pc.toNat ≤ 0x0FFE →
    op = BitVec.ofNat 16 ((s.mem.read s.pc.toNat).toNat * 256 + (s.mem.read (s.pc.toNat + 1)).toNat) →
    op &&& 0xF00F#16 = 0x000E#16 → s.sp = 0 →
    hostStep .cycle s = (s, .fault (.stackUnderflow s.pc op))

/-- 60_exceptions.md R70, whole: `Push` raises `StackOverflow` exactly on the full stack, and no cycle ever returns it. -/
def Obligations.StackOverflowIsOnlyPushs : Prop :=
  (∀ (op : Word) (s : State), s.sp.val = 16 → push op s = .fault (.stackOverflow s.pc op)) ∧
  (∀ (op : Word) (s : State), s.sp.val ≠ 16 → ∃ t, push op s = .next t) ∧
  (∀ (s : State) (pc op : Word), cycle s ≠ .fault (.stackOverflow pc op))

/-- 41_control_transfer.md R56 and R57: `Push` stores the invoking instruction's own address and moves the pointer up, nothing
else; a RET executed after it, wherever `PC` then is, resumes two past that address with the pointer back (C1). -/
def Obligations.PushThenRetResumesAfterTheCaller : Prop :=
  ∀ (op : Word) (s t : State), push op s = .next t →
    s.sp.val < 16 ∧ t.sp.val = s.sp.val + 1 ∧
    (∀ j : Fin 16, t.stackAt j = if j.val = s.sp.val then s.pc else s.stackAt j) ∧
    t = { s with sp := t.sp, stack := t.stack } ∧
    ∀ (ign : BitVec 8) (w : Word), ∃ u,
      exec (.ret ign) { t with pc := w } = .next u ∧ u.pc = s.pc + 2#16 ∧ u.sp = s.sp ∧ u.stack = t.stack

/-! ### Registers -/

/-- 42_register_ops.md R58, whole: LD Vx, NN completes, writes `NN` to `V[X]` (VF like any other) and advances `PC`. -/
def Obligations.LdVLoadsTheImmediate : Prop :=
  (∀ (x : Reg) (nn : Byte) (s : State),
    exec (.ldV x nn) s =
      .next { s with v := s.v.set x.val nn, pc := BitVec.ofNat 16 ((s.pc.toNat + 2) % 65536) }) ∧
  (∀ op : Word, op &&& 0xF000#16 = 0x6000#16 →
    decodeWord op = some (.ldV (Fin.ofNat 16 (op.toNat / 256)) (op.extractLsb 7 0)))

/-- 42_register_ops.md R59, whole: ADD Vx, NN completes, writes the sum modulo 256 to `V[X]` and advances `PC`; no carry goes
anywhere, so with `X` other than 15 `V[15]` is unchanged even on overflow. -/
def Obligations.AddVAddsModulo256WithoutCarry : Prop :=
  (∀ (x : Reg) (nn : Byte) (s : State),
    exec (.addV x nn) s =
      .next { s with
        v := s.v.set x.val (BitVec.ofNat 8 ((s.v[x.val].toNat + nn.toNat) % 256))
        pc := BitVec.ofNat 16 ((s.pc.toNat + 2) % 65536) }) ∧
  (∀ (x : Reg) (nn : Byte) (s t : State), exec (.addV x nn) s = .next t → x ≠ 15 → t.reg 15 = s.reg 15) ∧
  (∀ op : Word, op &&& 0xF000#16 = 0x7000#16 →
    decodeWord op = some (.addV (Fin.ofNat 16 (op.toNat / 256)) (op.extractLsb 7 0)))

/-- 42_register_ops.md R60, whole: LD I, NNN completes, writes the zero-extended immediate to `I`, whose top four bits become 0,
and advances `PC`. -/
def Obligations.LdILoadsTheAddress : Prop :=
  (∀ (nnn : Addr12) (s : State),
    exec (.ldI nnn) s =
      .next { s with i := BitVec.ofNat 16 nnn.toNat, pc := BitVec.ofNat 16 ((s.pc.toNat + 2) % 65536) }) ∧
  (∀ nnn : Addr12, (BitVec.ofNat 16 nnn.toNat).toNat ≤ 0x0FFF) ∧
  (∀ op : Word, op &&& 0xF000#16 = 0xA000#16 → decodeWord op = some (.ldI (op.extractLsb 11 0)))

/-! ### Display -/

/-- 43_display.md R62, whole: CLS completes, clears every cell, raises the draw flag and advances `PC`; nothing else changes,
`V[15]` included, whatever the ignored bits of the word. -/
def Obligations.ClsClearsEveryCell : Prop :=
  (∀ (ign : BitVec 8) (s : State), ∃ t,
    exec (.cls ign) s = .next t ∧ (∀ k, k < 2048 → t.fb.cell k = false) ∧
      t = { s with fb := t.fb, draw := true, pc := BitVec.ofNat 16 ((s.pc.toNat + 2) % 65536) }) ∧
  (∀ op : Word, op &&& 0xF00F#16 = 0x0000#16 → decodeWord op = some (.cls (op.extractLsb 11 4)))

/-- 43_display.md R65 (an inference the spec marks as its own): the closed form of DRW. When every row's byte exists
and every set sprite bit lands inside the framebuffer, DRW completes: exactly the targeted cells are toggled, `V[15]` is 1 if
one of them was set and 0 otherwise, the draw flag is raised, `PC` advances, and nothing else changes. -/
def Obligations.DrwClosedForm : Prop :=
  ∀ (x y : Reg) (n : BitVec 4) (s : State),
    (∀ r, r < n.toNat → s.i.toNat + r ≤ 0x0FFF ∧
      ∀ c, c < 8 → (s.mem.read (s.i.toNat + r)).getLsbD (7 - c) = true →
        ((s.reg x).toNat + c) + ((s.reg y).toNat + r) * 64 ≤ 2047) →
    ∃ t, exec (.drw x y n) s = .next t ∧
      (∀ k, k < 2048 →
        ((∃ r c, r < n.toNat ∧ c < 8 ∧ (s.mem.read (s.i.toNat + r)).getLsbD (7 - c) = true ∧
            ((s.reg x).toNat + c) + ((s.reg y).toNat + r) * 64 = k) → t.fb.cell k = !s.fb.cell k) ∧
        ((¬ ∃ r c, r < n.toNat ∧ c < 8 ∧ (s.mem.read (s.i.toNat + r)).getLsbD (7 - c) = true ∧
            ((s.reg x).toNat + c) + ((s.reg y).toNat + r) * 64 = k) → t.fb.cell k = s.fb.cell k)) ∧
      ((∃ r c, r < n.toNat ∧ c < 8 ∧ (s.mem.read (s.i.toNat + r)).getLsbD (7 - c) = true ∧
          s.fb.cell (((s.reg x).toNat + c) + ((s.reg y).toNat + r) * 64) = true) → t.reg 15 = 0x01#8) ∧
      ((¬ ∃ r c, r < n.toNat ∧ c < 8 ∧ (s.mem.read (s.i.toNat + r)).getLsbD (7 - c) = true ∧
          s.fb.cell (((s.reg x).toNat + c) + ((s.reg y).toNat + r) * 64) = true) → t.reg 15 = 0x00#8) ∧
      t = { s with
        v := s.v.set 15 (t.reg 15)
        fb := t.fb
        draw := true
        pc := BitVec.ofNat 16 ((s.pc.toNat + 2) % 65536) } ∧
      ∀ a, t.mem.read a = s.mem.read a

/-- DRW faults exactly with the first violation in scan order, rows ascending, the row's address before its set bits, columns
ascending (60_exceptions.md R74, 43_display.md R63; order and faults are the spec's decisions D4, D5, D6, D20). -/
def Obligations.DrwReportsTheFirstViolation : Prop :=
  ∀ (x y : Reg) (n : BitVec 4) (s : State) (f : Fault),
    exec (.drw x y n) s = .fault f ↔
      ∃ r, r < n.toNat ∧
        (∀ q, q < r → s.i.toNat + q ≤ 0x0FFF ∧
          ∀ c, c < 8 → (s.mem.read (s.i.toNat + q)).getLsbD (7 - c) = true →
            ((s.reg x).toNat + c) + ((s.reg y).toNat + q) * 64 ≤ 2047) ∧
        ((0x0FFF < s.i.toNat + r ∧
            f = .memoryOutOfBounds (.sprite (encode (.drw x y n))) (s.i.toNat + r) s.pc) ∨
          (s.i.toNat + r ≤ 0x0FFF ∧
            ∃ c, c < 8 ∧ (s.mem.read (s.i.toNat + r)).getLsbD (7 - c) = true ∧
              2047 < ((s.reg x).toNat + c) + ((s.reg y).toNat + r) * 64 ∧
              (∀ d, d < c → (s.mem.read (s.i.toNat + r)).getLsbD (7 - d) = true →
                ((s.reg x).toNat + d) + ((s.reg y).toNat + r) * 64 ≤ 2047) ∧
              f = .framebufferOutOfBounds (((s.reg x).toNat + c) + ((s.reg y).toNat + r) * 64) s.pc
                (encode (.drw x y n))))

/-- 43_display.md R63 corner case (a) (an inference the spec marks): with `N = 0` DRW completes wherever `I` points, clears
`V[15]`, raises the draw flag, advances `PC`, and changes nothing else. -/
def Obligations.DrwOfZeroRowsCompletes : Prop :=
  ∀ (x y : Reg) (s : State),
    exec (.drw x y 0#4) s =
      .next { s with
        v := s.v.set 15 0x00#8
        draw := true
        pc := BitVec.ofNat 16 ((s.pc.toNat + 2) % 65536) }

/-- 43_display.md R63 corner case (f): a second draw of the same sprite at the same place restores the framebuffer. It reports a
collision iff the first draw set some cell, that is, iff a targeted cell was clear before it. "At the same place" means the
coordinate registers still hold the first draw's coordinates (the first draw has overwritten `V[15]`). -/
def Obligations.DrawingTwiceRestoresTheFramebuffer : Prop :=
  ∀ (x y : Reg) (n : BitVec 4) (s t : State),
    exec (.drw x y n) s = .next t → t.reg x = s.reg x → t.reg y = s.reg y →
    ∃ u, exec (.drw x y n) t = .next u ∧ u.fb = s.fb ∧
      (u.reg 15 = 0x01#8 ↔ ∃ r c, r < n.toNat ∧ c < 8 ∧ (s.mem.read (s.i.toNat + r)).getLsbD (7 - c) = true ∧
        s.fb.cell (((s.reg x).toNat + c) + ((s.reg y).toNat + r) * 64) = false) ∧
      (u.reg 15 = 0x00#8 ∨ u.reg 15 = 0x01#8)

/-- 70_reset_and_hazards.md R94 item 3 (an inference the spec marks): the sufficient condition for a fault-free draw, the whole
sprite on screen and its bytes in memory. -/
def Obligations.OnScreenSpritesDrawWithoutFault : Prop :=
  ∀ (x y : Reg) (n : BitVec 4) (s : State), 1 ≤ n.toNat →
    s.i.toNat + n.toNat - 1 ≤ 0x0FFF → (s.reg x).toNat + 7 ≤ 63 → (s.reg y).toNat + n.toNat - 1 ≤ 31 →
    ∃ t, exec (.drw x y n) s = .next t

/-- 43_display.md R64 items 1 and 2 (inferences the spec marks): an in-range target is the pixel at its own column and row, or,
past column 63, the pixel of the column modulo 64 in a row further down. -/
def Obligations.SpriteColumnsSpillIntoLaterRows : Prop :=
  ∀ (fb : Framebuffer) (ox oy r c : Nat), cellIndex ox oy r c ≤ 2047 →
    (ox + c ≤ 63 → fb.cell (cellIndex ox oy r c) = fb.pixel (ox + c) (oy + r)) ∧
    (64 ≤ ox + c → fb.cell (cellIndex ox oy r c) = fb.pixel ((ox + c) % 64) ((oy + r) + (ox + c) / 64))

/-! ### Frames over all instructions -/

/-- What each instruction leaves unchanged when its execute phase answers a next state: memory at every address (no
instruction stores: 20_memory.md R25), the stack entries, both timers and the key table always; the framebuffer and the draw
flag except by CLS and DRW; `I` except by LD I; `SP` except by RET; every general register except the `V[X]` of LD Vx and ADD Vx
and the `V[15]` of DRW (10_state.md R9). -/
def Obligations.InstructionsChangeOnlyTheirTargets : Prop :=
  ∀ (i : Instr) (s t : State), exec i s = .next t →
    (∀ a, t.mem.read a = s.mem.read a) ∧ t.mem = s.mem ∧ (∀ j, t.stackAt j = s.stackAt j) ∧
    t.dt = s.dt ∧ t.st = s.st ∧ (∀ k, t.key k = s.key k) ∧
    ((∀ ign, i ≠ .cls ign) → (∀ x y n, i ≠ .drw x y n) → t.fb = s.fb ∧ t.draw = s.draw) ∧
    ((∀ nnn, i ≠ .ldI nnn) → t.i = s.i) ∧
    ((∀ ign, i ≠ .ret ign) → t.sp = s.sp) ∧
    (∀ r : Reg, (∀ nn, i ≠ .ldV r nn) → (∀ nn, i ≠ .addV r nn) → (r = 15 → ∀ x y n, i ≠ .drw x y n) →
      t.reg r = s.reg r)

/-- The program counter after each instruction's execute phase: the table of 40_cycle.md R49 (its modulus is the spec's
decision D7). -/
def Obligations.PcFollowsTheDiscipline : Prop :=
  ∀ (i : Instr) (s t : State), exec i s = .next t →
    match i with
    | .jp nnn => t.pc.toNat = nnn.toNat
    | .ret _ => ∃ h : 0 < s.sp.val, t.pc.toNat = (s.stack[s.sp.val - 1].toNat + 2) % 65536
    | _ => t.pc.toNat = (s.pc.toNat + 2) % 65536

/-- 10_state.md R19: CLS and DRW set the draw flag on every success, no other instruction changes it, `ClearDrawFlag` and
`PowerOn` (which makes a new state) clear it, no other operation clears a set flag, and every operation but `Cycle` and these
two leaves it as it was. That `Reset` is one of those, and that `PowerOn` clears it, is the spec's decision D9 (assumption
log 7, DESIGN CHOICE). -/
def Obligations.DrawFlagIsSetByDrawingAndClearedByTheHost : Prop :=
  (∀ (ign : BitVec 8) (s t : State), exec (.cls ign) s = .next t → t.draw = true) ∧
  (∀ (x y : Reg) (n : BitVec 4) (s t : State), exec (.drw x y n) s = .next t → t.draw = true) ∧
  (∀ (i : Instr) (s t : State), exec i s = .next t → (∀ ign, i ≠ .cls ign) → (∀ x y n, i ≠ .drw x y n) →
    t.draw = s.draw) ∧
  (∀ s : State, (hostStep .clearDrawFlag s).1.draw = false) ∧
  (∀ s : State, (hostStep .powerOn s).1.draw = false) ∧
  (∀ s : State, (hostStep .reset s).1.draw = s.draw) ∧
  (∀ (o : HostOp) (s : State), s.draw = true → (hostStep o s).1.draw = false → o = .clearDrawFlag ∨ o = .powerOn) ∧
  (∀ (o : HostOp) (s : State), o ≠ .cycle → o ≠ .clearDrawFlag → o ≠ .powerOn → (hostStep o s).1.draw = s.draw)

/-- 10_state.md section 3: DRW writes 0 or 1 to VF, no other instruction writes it as a flag (the two register instructions
write it only when it is their destination), and it is 0 at reset. -/
def Obligations.OnlyDrwWritesVfAsAFlag : Prop :=
  (∀ (x y : Reg) (n : BitVec 4) (s t : State), exec (.drw x y n) s = .next t → t.reg 15 = 0x00#8 ∨ t.reg 15 = 0x01#8) ∧
  (∀ (i : Instr) (s t : State), exec i s = .next t → (∀ x y n, i ≠ .drw x y n) → t.reg 15 ≠ s.reg 15 →
    ∃ nn, i = .ldV 15 nn ∨ i = .addV 15 nn) ∧
  State.reset.reg 15 = 0x00#8

/-! ### Timers and sound -/

/-- 10_state.md R15, whole: a successful cycle takes 1 from each timer above 0 and leaves one at 0; no instruction reads or
writes a timer (its outcome with other timer values is the same with those values kept); the host can read `ST`, and no
operation of the host but `Cycle` and the two resets writes a timer. -/
def Obligations.TimersMoveOnlyByTheTick : Prop :=
  (∀ s t : State, step s = .next t → t.dt.toNat = s.dt.toNat - 1 ∧ t.st.toNat = s.st.toNat - 1) ∧
  (∀ (i : Instr) (s : State) (d e : Byte),
    exec i { s with dt := d, st := e } = mapNext (fun t => { t with dt := d, st := e }) (exec i s)) ∧
  (∀ s : State, hostStep .readSoundTimer s = (s, .soundTimer s.st)) ∧
  (∀ (o : HostOp) (s : State), o ≠ .cycle → o ≠ .reset → o ≠ .powerOn →
    (hostStep o s).1.dt = s.dt ∧ (hostStep o s).1.st = s.st)

/-- 60_exceptions.md section 7: timers count cycles; after `n` successful cycles a timer is `n` lower, or 0 ("never negative"). -/
def Obligations.TimersCountSuccessfulCycles : Prop :=
  ∀ (n : Nat) (s t : State), runFrom n s = .next t → t.dt.toNat = s.dt.toNat - n ∧ t.st.toNat = s.st.toNat - n

/-- 60_exceptions.md R82, whole: the host can read `ST`; a successful cycle returns `ST` as it was just before the tick, and the
tone event, that value being 1, is exactly the cycle in which `ST` goes from 1 to 0. -/
def Obligations.SoundPreSignalsTheTone : Prop :=
  (∀ s : State, hostStep .readSoundTimer s = (s, .soundTimer s.st)) ∧
  (∀ (s : State) (r : CycleOk), cycle s = .next r →
    r.soundPre = s.st ∧ (hostStep .cycle s).2 = .ok s.st ∧
      (toneInstant r.soundPre = true ↔ s.st = 0x01#8 ∧ r.after.st = 0x00#8))

/-! ### The host's operations -/

/-- `LoadProgram` of at most 3584 bytes (20_memory.md R34, whose frame the spec derives): the bytes stand from 0x200 on, every
other address reads as before, and nothing but memory changes, which keeps its canonical form. -/
def Obligations.LoadProgramWritesTheImage : Prop :=
  ∀ (bytes : List Byte) (s : State), bytes.length ≤ 3584 →
    ∃ t, loadProgram bytes s = .next t ∧ hostStep (.loadProgram bytes) s = (t, .done) ∧
      (∀ (k : Nat) (h : k < bytes.length), t.mem.read (0x200 + k) = bytes[k]) ∧
      (∀ a, (a < 0x200 ∨ 0x200 + bytes.length ≤ a) → t.mem.read a = s.mem.read a) ∧
      t = { s with mem := t.mem } ∧ (s.mem.wf = true → t.mem.wf = true)

/-- A load is visible to the very next fetch (20_memory.md R37, an inference the spec marks): at `PC = 0x200 + k` the two loaded
bytes `k` and `k + 1` are fetched, big-endian, at an odd `k` as at an even one. -/
def Obligations.LoadedWordIsFetchedNext : Prop :=
  ∀ (bytes : List Byte) (s t : State) (k : Nat) (h : k + 1 < bytes.length),
    loadProgram bytes s = .next t → s.pc.toNat = 0x200 + k →
    fetch t = .ok (BitVec.ofNat 16 (bytes[k].toNat * 256 + bytes[k + 1].toNat))

/-- 60_exceptions.md R73, whole: a longer sequence is reported as `LoadError` with its length, and memory is not modified. -/
def Obligations.OversizedLoadIsRejected : Prop :=
  ∀ (bytes : List Byte) (s : State), 3584 < bytes.length →
    loadProgram bytes s = .fault (.loadError bytes.length) ∧
    hostStep (.loadProgram bytes) s = (s, .fault (.loadError bytes.length))

/-- The column "after `PowerOn`" of 10_state.md R21 (`KEYS` and `DRAW` at 0 are the spec's decision D9, the font's bytes are the
parameter `FONT`, D19): `PowerOn` gives `State.reset` from any state, and `State.reset` holds these values. -/
def Obligations.PowerOnGivesTheResetState : Prop :=
  (∀ s : State, powerOn s = State.reset) ∧
  (∀ x : Reg, State.reset.reg x = 0x00#8) ∧ State.reset.i = 0x0000#16 ∧ State.reset.pc = 0x0200#16 ∧
  State.reset.sp = 0 ∧ (∀ j : Fin 16, State.reset.stackAt j = 0x0000#16) ∧
  State.reset.dt = 0x00#8 ∧ State.reset.st = 0x00#8 ∧
  (∀ (a : Nat) (h : a < 80), State.reset.mem.read a = Config.font[a]) ∧
  (∀ a, 80 ≤ a → State.reset.mem.read a = 0x00#8) ∧
  (∀ k, k < 2048 → State.reset.fb.cell k = false) ∧
  (∀ k : Fin 16, State.reset.key k = false) ∧ State.reset.draw = false

/-- `Reset` (70_reset_and_hazards.md R89, R90; leaving `KEYS` and `DRAW` is the spec's decision D9): every other element is that
of the reset state, these two are kept, and a second `Reset` changes nothing. -/
def Obligations.ResetIsCanonicalAndIdempotent : Prop :=
  ∀ s : State,
    resetOp s = { State.reset with keys := s.keys, draw := s.draw } ∧ resetOp (resetOp s) = resetOp s ∧
    hostStep .reset s = (resetOp s, .done)

/-- The loops of 70_reset_and_hazards.md R89, byte by byte: zeroing all 4096 bytes and then copying the 80 font bytes leaves,
from any memory in canonical form, the memory `Reset` leaves. -/
def Obligations.ResetLoopsLeaveResetMemory : Prop :=
  ∀ s : State, s.mem.wf = true →
    ((List.finRange 80).foldl (fun t a => memWrite (a.castLE (by decide)) Config.font[a.val] t)
      ((List.finRange 4096).foldl (fun t a => memWrite a 0x00#8 t) s)).mem = (resetOp s).mem

/-- `SetKey` writes one entry of the key table and nothing else, and no cycle observes it (10_state.md R18, 60_exceptions.md R83;
the entry's shape and the index range are the spec's decisions D10 and D24): the step after it is the step without it, with
the entry written. -/
def Obligations.KeyTableIsNeverObserved : Prop :=
  ∀ (k : Fin 16) (b : Bool) (s : State),
    hostStep (.setKey k b) s = (setKeyOp k b s, .done) ∧
    (∀ j, (setKeyOp k b s).key j = if j = k then b else s.key j) ∧
    setKeyOp k b s = { s with keys := (setKeyOp k b s).keys } ∧
    step (setKeyOp k b s) = mapNext (setKeyOp k b) (step s)

/-- 60_exceptions.md R87 (an inference the spec marks): no instruction can test a timer, a key or the draw flag. From two states
that differ only in these, a step ends the same way, with the same fault or with next states that differ only in these. -/
def Obligations.ProgramsObserveNoDeviceState : Prop :=
  ∀ s s' : State, eraseDevices s = eraseDevices s' →
    mapNext eraseDevices (step s) = mapNext eraseDevices (step s')

/-- 60_exceptions.md R84, whole: `ClearDrawFlag` clears the flag and nothing else, `ReadDrawFlag` returns it, only a cycle that
executes CLS or DRW sets it, and no other operation of the host does. -/
def Obligations.ClearDrawFlagClearsOnlyTheFlag : Prop :=
  (∀ s : State, hostStep .clearDrawFlag s = ({ s with draw := false }, .done)) ∧
  (∀ s : State, hostStep .readDrawFlag s = (s, .drawFlag s.draw)) ∧
  (∀ (o : HostOp) (s : State), s.draw = false → (hostStep o s).1.draw = true →
    o = .cycle ∧ ((∃ ign, current s = some (.cls ign)) ∨ ∃ x y n, current s = some (.drw x y n)))

/-- 60_exceptions.md section 8: `ReadFramebuffer` returns the cells and changes nothing, the draw flag included; the cell at
column `x`, row `y` has index `x + y*64`; no operation of the host but `Reset` and `PowerOn`, which zero it, and `Cycle` changes
the framebuffer. -/
def Obligations.FramebufferViewIsReadOnly : Prop :=
  (∀ s : State, hostStep .readFramebuffer s = (s, .framebuffer s.fb)) ∧
  (∀ (fb : Framebuffer) (x y : Nat), fb.pixel x y = fb.cell (x + y * 64)) ∧
  (∀ (o : HostOp) (s : State), o ≠ .cycle → o ≠ .reset → o ≠ .powerOn → (hostStep o s).1.fb = s.fb)

/-! ### Invariants and whole-machine facts -/

/-- The facts of 70_reset_and_hazards.md R95 hold after `PowerOn`. -/
def Obligations.ReachableFactsHoldAtReset : Prop := ReachableFacts State.reset

/-- Headline: every step keeps the facts of 70_reset_and_hazards.md R95 (an inference the spec marks as its own): the stack
stays empty and zero, the timers 0, `I` at most 0x0FFF, memory below 0x200 as after reset, `PC` at most 0x1000, and the memory
list canonical. -/
def Obligations.StepKeepsReachableFacts : Prop :=
  ∀ s t : State, ReachableFacts s → step s = .next t → ReachableFacts t

/-- Headline, 70_reset_and_hazards.md R95: in every state the host can bring about, by any operations in any order, the facts
hold; hence every successful cycle returns `sound_pre = 0` and every executed RET faults with `StackUnderflow`. -/
def Obligations.ReachableStatesKeepTheirFacts : Prop :=
  ∀ s : State, Reachable s →
    ReachableFacts s ∧ (∀ r, cycle s = .next r → r.soundPre = 0x00#8) ∧
    (∀ ign, current s = some (.ret ign) → step s = .fault (.stackUnderflow s.pc (encode (.ret ign))))

/-- 70_reset_and_hazards.md R98 (an inference the spec marks as its own): the fixed points of `Cycle` are exactly the
settled states: both timers 0 and `PC` at a JP to its own address. -/
def Obligations.FixedPointsAreTheSettledStates : Prop :=
  ∀ s : State, FixedPoint s ↔ s.dt = 0x00#8 ∧ s.st = 0x00#8 ∧ SelfJump s

/-- 70_reset_and_hazards.md R97 (b) (a convention the spec decides, D26): from a jump-to-self every run goes on without a fault,
and only the timers move, down to 0 and no further. -/
def Obligations.SelfJumpOnlyCountsTimersDown : Prop :=
  ∀ s : State, SelfJump s → ∀ n,
    runFrom n s = .next { s with
      dt := BitVec.ofNat 8 (s.dt.toNat - n)
      st := BitVec.ofNat 8 (s.st.toNat - n) }

/-- 70_reset_and_hazards.md R98 (an inference the spec marks): a run of `n` cycles that executes no JP and no RET moves `PC` up
by `2 n` and so has at most 2048 cycles: a run that never jumps cannot be infinite. -/
def Obligations.StraightLineRunsAreBounded : Prop :=
  ∀ (n : Nat) (s t : State), runFrom n s = .next t →
    (∀ (k : Nat) (u : State), k < n → runFrom k s = .next u →
      (∀ nnn, current u ≠ some (.jp nnn)) ∧ ∀ ign, current u ≠ some (.ret ign)) →
    n ≤ 2048 ∧ (0 < n → t.pc.toNat = s.pc.toNat + 2 * n)

/-- 70_reset_and_hazards.md R91 (an inference the spec marks): with nothing loaded the machine executes 1792 CLS cycles, which
change only `PC` and the draw flag, and then faults at its fetch at `PC = 0x1000`. -/
def Obligations.EmptyMachineClearsUntilItLeavesMemory : Prop :=
  (∀ n, n ≤ 1792 →
    runFrom n State.reset =
      .next { State.reset with pc := BitVec.ofNat 16 (0x200 + 2 * n), draw := decide (0 < n) }) ∧
  runFrom 1793 State.reset = .fault (.memoryOutOfBounds .fetch 0x1000 0x1000#16)

/-- 70_reset_and_hazards.md R91 and 30_encoding.md R43 (never-loaded memory executes as CLS), from every state: at a zero word a
step completes, clears every cell, raises the draw flag, moves `PC` up by 2, which does not wrap, and ticks the timers; nothing
else changes. -/
def Obligations.ZeroWordsExecuteAsCls : Prop :=
  ∀ s : State, s.pc.toNat ≤ 0x0FFE → s.mem.read s.pc.toNat = 0x00#8 → s.mem.read (s.pc.toNat + 1) = 0x00#8 →
    ∃ t, step s = .next t ∧ (∀ k, k < 2048 → t.fb.cell k = false) ∧ t.pc.toNat = s.pc.toNat + 2 ∧
      t.dt.toNat = s.dt.toNat - 1 ∧ t.st.toNat = s.st.toNat - 1 ∧
      t = { s with fb := t.fb, draw := true, pc := t.pc, dt := t.dt, st := t.st }
end

