-- ==== Sys2Proof/Laws/Decode.lean ====
section
/-! SUPPORT. The fields of a word and the words of instructions as numbers, and what a decoded word can be. -/

namespace Sys2Proof

/-! ### Fields as numbers -/

/-- An append is the high part shifted over the low part. -/
theorem append_toNat {m n : Nat} (a : BitVec m) (b : BitVec n) : (a ++ b).toNat = a.toNat * 2 ^ n + b.toNat := by
  rw [BitVec.toNat_append, ← Nat.shiftLeft_add_eq_or_of_lt b.isLt, Nat.shiftLeft_eq]

theorem fieldF_toNat (op : Word) : (fieldF op).toNat = op.toNat / 4096 := by
  have := op.isLt
  simp only [fieldF, BitVec.extractLsb'_toNat, Nat.shiftRight_eq_div_pow]
  omega

theorem fieldX_val (op : Word) : (fieldX op).val = op.toNat / 256 % 16 := by
  simp only [fieldX, BitVec.extractLsb'_toNat, Nat.shiftRight_eq_div_pow]

theorem fieldY_val (op : Word) : (fieldY op).val = op.toNat / 16 % 16 := by
  simp only [fieldY, BitVec.extractLsb'_toNat, Nat.shiftRight_eq_div_pow]

theorem fieldN_toNat (op : Word) : (fieldN op).toNat = op.toNat % 16 := by
  simp only [fieldN, BitVec.extractLsb'_toNat, Nat.shiftRight_eq_div_pow]
  omega

theorem fieldNN_toNat (op : Word) : (fieldNN op).toNat = op.toNat % 256 := by
  simp only [fieldNN, BitVec.extractLsb'_toNat, Nat.shiftRight_eq_div_pow]
  omega

theorem fieldNNN_toNat (op : Word) : (fieldNNN op).toNat = op.toNat % 4096 := by
  simp only [fieldNNN, BitVec.extractLsb'_toNat, Nat.shiftRight_eq_div_pow]
  omega

theorem fieldIgn_toNat (op : Word) : (fieldIgn op).toNat = op.toNat / 16 % 256 := by
  simp only [fieldIgn, BitVec.extractLsb'_toNat, Nat.shiftRight_eq_div_pow]

theorem regBits_toNat (x : Reg) : (regBits x).toNat = x.val := by
  have := x.isLt
  simp only [regBits, BitVec.toNat_ofNat]
  omega

theorem wordOfBytes_toNat (hi lo : Byte) : (wordOfBytes hi lo).toNat = hi.toNat * 256 + lo.toNat :=
  append_toNat hi lo

theorem highByte_toNat (w : Word) : (highByte w).toNat = w.toNat / 256 := by
  have := w.isLt
  simp only [highByte, BitVec.extractLsb'_toNat, Nat.shiftRight_eq_div_pow]
  omega

theorem lowByte_toNat (w : Word) : (lowByte w).toNat = w.toNat % 256 := by
  simp only [lowByte, BitVec.extractLsb'_toNat, Nat.shiftRight_eq_div_pow]
  omega

/-- A word is its two bytes, high byte first. -/
@[simp] theorem wordOfBytes_bytes (w : Word) : wordOfBytes (highByte w) (lowByte w) = w := by
  apply BitVec.eq_of_toNat_eq
  rw [wordOfBytes_toNat, highByte_toNat, lowByte_toNat]
  omega

/-! ### Words of instructions as numbers -/

theorem encode_cls_toNat (ign : BitVec 8) : (encode (.cls ign)).toNat = ign.toNat * 16 := by
  simp only [encode, append_toNat, BitVec.toNat_ofNat]; omega

theorem encode_ret_toNat (ign : BitVec 8) : (encode (.ret ign)).toNat = ign.toNat * 16 + 14 := by
  simp only [encode, append_toNat, BitVec.toNat_ofNat]; omega

theorem encode_jp_toNat (nnn : Addr12) : (encode (.jp nnn)).toNat = 0x1000 + nnn.toNat := by
  simp only [encode, append_toNat, BitVec.toNat_ofNat]; omega

theorem encode_ldV_toNat (x : Reg) (nn : Byte) : (encode (.ldV x nn)).toNat = 0x6000 + x.val * 256 + nn.toNat := by
  simp only [encode, append_toNat, BitVec.toNat_ofNat, regBits_toNat]; omega

theorem encode_addV_toNat (x : Reg) (nn : Byte) : (encode (.addV x nn)).toNat = 0x7000 + x.val * 256 + nn.toNat := by
  simp only [encode, append_toNat, BitVec.toNat_ofNat, regBits_toNat]; omega

theorem encode_ldI_toNat (nnn : Addr12) : (encode (.ldI nnn)).toNat = 0xA000 + nnn.toNat := by
  simp only [encode, append_toNat, BitVec.toNat_ofNat]; omega

theorem encode_drw_toNat (x y : Reg) (n : BitVec 4) :
    (encode (.drw x y n)).toNat = 0xD000 + x.val * 256 + y.val * 16 + n.toNat := by
  simp only [encode, append_toNat, BitVec.toNat_ofNat, regBits_toNat]; omega

/-! ### The masks of the opcode map -/

theorem and_F000 (w : Word) : w &&& 0xF000#16 = fieldF w ++ 0x000#12 := by
  apply BitVec.eq_of_getLsbD_eq
  intro i hi
  have h : (fieldF w ++ 0x000#12).getLsbD i = if i < 12 then (0x000#12).getLsbD i else (fieldF w).getLsbD (i - 12) :=
    BitVec.getLsbD_append
  refine Eq.trans ?_ h.symm
  interval_cases i <;> simp [fieldF]

theorem and_F00F (w : Word) : w &&& 0xF00F#16 = fieldF w ++ 0x00#8 ++ fieldN w := by
  apply BitVec.eq_of_getLsbD_eq
  intro i hi
  have h : (fieldF w ++ 0x00#8 ++ fieldN w).getLsbD i =
      if i < 4 then (fieldN w).getLsbD i else
        if i - 4 < 8 then (0x00#8).getLsbD (i - 4) else (fieldF w).getLsbD (i - 4 - 8) := by
    rw [BitVec.getLsbD_append, BitVec.getLsbD_append]
  refine Eq.trans ?_ h.symm
  interval_cases i <;> simp [fieldF, fieldN]

/-- A mask 0xF000 examines the family only. -/
theorem and_F000_eq_iff (w : Word) (f : BitVec 4) : w &&& 0xF000#16 = f ++ 0x000#12 ↔ fieldF w = f := by
  rw [and_F000]
  refine ⟨fun h => BitVec.eq_of_toNat_eq ?_, fun h => by rw [h]⟩
  have := congrArg BitVec.toNat h
  simp only [append_toNat] at this
  omega

/-- A mask 0xF00F examines the family and the low nibble only. -/
theorem and_F00F_eq_iff (w : Word) (f n : BitVec 4) :
    w &&& 0xF00F#16 = f ++ 0x00#8 ++ n ↔ fieldF w = f ∧ fieldN w = n := by
  rw [and_F00F]
  refine ⟨fun h => ?_, fun h => by rw [h.1, h.2]⟩
  have := congrArg BitVec.toNat h
  simp only [append_toNat] at this
  have := n.isLt
  have := (fieldN w).isLt
  exact ⟨BitVec.eq_of_toNat_eq (by omega), BitVec.eq_of_toNat_eq (by omega)⟩

/-! ### What a decoded word can be -/

/-- One case per family of 30_encoding.md R42: a word that decodes does so to the instruction of its family, with the
operands of its own fields. -/
theorem decodeWord_cases {op : Word} {i : Instr} (h : decodeWord op = some i) :
    ((fieldF op).toNat = 0 ∧ (fieldN op).toNat = 0 ∧ i = .cls (fieldIgn op)) ∨
    ((fieldF op).toNat = 0 ∧ (fieldN op).toNat = 14 ∧ i = .ret (fieldIgn op)) ∨
    ((fieldF op).toNat = 1 ∧ i = .jp (fieldNNN op)) ∨
    ((fieldF op).toNat = 6 ∧ i = .ldV (fieldX op) (fieldNN op)) ∨
    ((fieldF op).toNat = 7 ∧ i = .addV (fieldX op) (fieldNN op)) ∨
    ((fieldF op).toNat = 10 ∧ i = .ldI (fieldNNN op)) ∨
    ((fieldF op).toNat = 13 ∧ i = .drw (fieldX op) (fieldY op) (fieldN op)) := by
  unfold decodeWord at h
  split at h
  · next hF =>
    split at h
    · next hN => simp_all
    · next hN => simp_all
    · exact absurd h (by simp)
  all_goals simp_all

end Sys2Proof
end

