-- ==== Sys2Proof/Laws/Memory.lean ====
section
/-! SUPPORT. The memory laws: a read after a write, and that every memory operation keeps the canonical form. -/

namespace Sys2Proof.Machine

/-! ### Read after write -/

theorem Memory.read_erase (m : Memory) (a x : Nat) :
    (m.erase a).read x = if x = a then Memory.initial a else m.read x := by
  induction m with
  | nil => simp only [Memory.erase, Memory.read]; split <;> simp_all
  | cons cell m ih =>
    obtain ⟨k, b⟩ := cell
    simp only [Memory.erase]
    split_ifs with hk hx hx <;> simp only [Memory.read, ih] <;> split_ifs <;> first | rfl | (exfalso; omega)

theorem Memory.read_insert (m : Memory) (a x : Nat) (b : Byte) :
    (m.insert a b).read x = if x = a then b else m.read x := by
  induction m with
  | nil => simp only [Memory.insert, Memory.read, eq_comm (a := a)]
  | cons cell m ih =>
    obtain ⟨k, c⟩ := cell
    simp only [Memory.insert]
    split_ifs with h1 h2 hx hx hx <;> simp only [Memory.read, ih] <;> split_ifs <;> first | rfl | (exfalso; omega)

/-- A read after a write gives the byte written at its address and the old byte everywhere else. -/
theorem Memory.read_write (m : Memory) (a x : Nat) (b : Byte) :
    (m.write a b).read x = if x = a then b else m.read x := by
  simp only [Memory.write]
  split
  · next h => rw [Memory.read_erase, h]
  · exact Memory.read_insert m a x b

/-! ### The canonical form -/

theorem Memory.rising_iff (m : Memory) : m.rising = true ↔ m.Pairwise fun x y => x.1 < y.1 := by
  induction m with
  | nil => simp [Memory.rising]
  | cons cell m ih =>
    cases m with
    | nil => simp [Memory.rising]
    | cons next m =>
      obtain ⟨a, x⟩ := cell
      obtain ⟨b, y⟩ := next
      simp only [Memory.rising, Bool.and_eq_true, decide_eq_true_eq, ih, List.pairwise_cons]
      constructor
      · rintro ⟨hab, hb, hm⟩
        refine ⟨fun z hz => ?_, hb, hm⟩
        rcases List.mem_cons.1 hz with rfl | hz
        · exact hab
        · exact hab.trans (hb z hz)
      · rintro ⟨ha, hb, hm⟩
        exact ⟨ha _ List.mem_cons_self, hb, hm⟩

/-- The canonical form as a proposition. -/
theorem Memory.wf_iff (m : Memory) :
    m.wf = true ↔ (m.Pairwise fun x y => x.1 < y.1) ∧
      ∀ cell ∈ m, cell.1 < 4096 ∧ cell.2 ≠ Memory.initial cell.1 := by
  simp only [Memory.wf, Bool.and_eq_true, Memory.rising_iff, List.all_eq_true, Bool.not_eq_true', decide_eq_true_eq,
    decide_eq_false_iff_not, Config.memLen, ne_eq]

theorem Memory.wf_nil : Memory.wf [] = true := rfl

theorem Memory.mem_erase {m : Memory} {a : Nat} {cell : Host.Cell} (h : cell ∈ m.erase a) : cell ∈ m := by
  induction m with
  | nil => simp [Memory.erase] at h
  | cons head m ih =>
    simp only [Memory.erase] at h
    split at h
    · exact List.mem_cons_of_mem _ (ih h)
    · rcases List.mem_cons.1 h with rfl | h
      · exact List.mem_cons_self
      · exact List.mem_cons_of_mem _ (ih h)

theorem Memory.mem_insert {m : Memory} {a : Nat} {b : Byte} {cell : Host.Cell} (h : cell ∈ m.insert a b) :
    cell = (a, b) ∨ cell ∈ m := by
  induction m with
  | nil => simpa [Memory.insert] using h
  | cons head m ih =>
    obtain ⟨k, c⟩ := head
    simp only [Memory.insert] at h
    split at h
    · simpa using h
    · split at h
      · rcases List.mem_cons.1 h with rfl | h
        · exact .inl rfl
        · exact .inr (List.mem_cons_of_mem _ h)
      · rcases List.mem_cons.1 h with rfl | h
        · exact .inr List.mem_cons_self
        · exact (ih h).imp_right (List.mem_cons_of_mem _)

theorem Memory.erase_wf {m : Memory} (a : Nat) (hm : m.wf = true) : (m.erase a).wf = true := by
  rw [Memory.wf_iff] at hm ⊢
  refine ⟨?_, fun cell h => hm.2 cell (Memory.mem_erase h)⟩
  have hp := hm.1
  clear hm
  induction m with
  | nil => exact List.Pairwise.nil
  | cons head m ih =>
    rw [List.pairwise_cons] at hp
    simp only [Memory.erase]
    split
    · exact ih hp.2
    · exact List.pairwise_cons.2 ⟨fun z hz => hp.1 z (Memory.mem_erase hz), ih hp.2⟩

theorem Memory.insert_wf {m : Memory} {a : Nat} {b : Byte} (ha : a < 4096) (hb : b ≠ Memory.initial a) (hm : m.wf = true) :
    (m.insert a b).wf = true := by
  rw [Memory.wf_iff] at hm ⊢
  refine ⟨?_, fun cell h => ?_⟩
  · have hp := hm.1
    clear hm
    induction m with
    | nil => simp [Memory.insert]
    | cons head m ih =>
      obtain ⟨k, c⟩ := head
      have hp' := hp
      rw [List.pairwise_cons] at hp
      simp only [Memory.insert]
      split
      · next h =>
        refine List.pairwise_cons.2 ⟨fun z hz => ?_, hp'⟩
        rcases List.mem_cons.1 hz with rfl | hz
        · exact h
        · exact lt_trans h (hp.1 z hz)
      · split
        · next h => subst h; exact List.pairwise_cons.2 ⟨hp.1, hp.2⟩
        · next h1 h2 =>
          refine List.pairwise_cons.2 ⟨fun z hz => ?_, ih hp.2⟩
          rcases Memory.mem_insert hz with rfl | hz
          · show k < a; omega
          · exact hp.1 z hz
  · rcases Memory.mem_insert h with rfl | h
    · exact ⟨ha, hb⟩
    · exact hm.2 cell h

/-- Every write keeps the canonical form. -/
theorem Memory.write_wf {m : Memory} {a : Nat} (b : Byte) (ha : a < 4096) (hm : m.wf = true) : (m.write a b).wf = true := by
  simp only [Memory.write]
  split
  · exact Memory.erase_wf a hm
  · next h => exact Memory.insert_wf ha h hm

theorem reset_mem_wf : State.reset.mem.wf = true := rfl

theorem memWrite_wf (a : Fin 4096) (b : Byte) {s : State} (hs : s.mem.wf = true) : (memWrite a b s).mem.wf = true :=
  Memory.write_wf b a.isLt hs

theorem writeBytes_wf (a : Nat) (bytes : List Byte) (h : a + bytes.length ≤ 4096) {s : State} (hs : s.mem.wf = true) :
    (writeBytes a bytes h s).mem.wf = true := by
  induction bytes generalizing a s with
  | nil => exact hs
  | cons b bs ih => exact ih _ _ (memWrite_wf _ _ hs)

/-! ### What a run of byte writes leaves -/

/-- After the writes, address `x` reads as the byte written there, or as before outside the written range. -/
theorem writeBytes_read (a : Nat) (bytes : List Byte) (h : a + bytes.length ≤ 4096) (s : State) (x : Nat) :
    (writeBytes a bytes h s).mem.read x =
      if hx : a ≤ x ∧ x < a + bytes.length then bytes[x - a]'(by omega) else s.mem.read x := by
  induction bytes generalizing a s with
  | nil => simp only [writeBytes, List.length_nil]; rw [dif_neg (by omega)]
  | cons b bs ih =>
    simp only [writeBytes, ih, List.length_cons, memWrite, Memory.read_write]
    by_cases h1 : x = a
    · subst h1
      rw [dif_neg (by omega), dif_pos (by omega)]
      simp
    · by_cases h2 : a + 1 ≤ x ∧ x < a + 1 + bs.length
      · rw [dif_pos h2, dif_pos (by omega)]
        have : x - a = (x - (a + 1)) + 1 := by omega
        simp [this]
      · rw [dif_neg h2, dif_neg (by omega), if_neg h1]

/-- The writes change nothing but memory. -/
theorem writeBytes_frame (a : Nat) (bytes : List Byte) (h : a + bytes.length ≤ 4096) (s : State) :
    writeBytes a bytes h s = { s with mem := (writeBytes a bytes h s).mem } := by
  induction bytes generalizing a s with
  | nil => rfl
  | cons b bs ih => exact (ih (a + 1) _ _).trans rfl

end Sys2Proof.Machine
end

