-- ==== Sys2Proof/Laws/State.lean ====
section
/-! SUPPORT. One lemma per field per update, each true by rfl, so that no later proof unfolds a record update; and the reads
through the accessors. -/

namespace Sys2Proof.Machine

variable (s : State)

/-! ### setReg -/

@[simp] theorem State.setReg_v (x : Reg) (b : Byte) : (s.setReg x b).v = s.v.set x.val b := rfl
@[simp] theorem State.setReg_i (x : Reg) (b : Byte) : (s.setReg x b).i = s.i := rfl
@[simp] theorem State.setReg_pc (x : Reg) (b : Byte) : (s.setReg x b).pc = s.pc := rfl
@[simp] theorem State.setReg_sp (x : Reg) (b : Byte) : (s.setReg x b).sp = s.sp := rfl
@[simp] theorem State.setReg_stack (x : Reg) (b : Byte) : (s.setReg x b).stack = s.stack := rfl
@[simp] theorem State.setReg_dt (x : Reg) (b : Byte) : (s.setReg x b).dt = s.dt := rfl
@[simp] theorem State.setReg_st (x : Reg) (b : Byte) : (s.setReg x b).st = s.st := rfl
@[simp] theorem State.setReg_mem (x : Reg) (b : Byte) : (s.setReg x b).mem = s.mem := rfl
@[simp] theorem State.setReg_fb (x : Reg) (b : Byte) : (s.setReg x b).fb = s.fb := rfl
@[simp] theorem State.setReg_keys (x : Reg) (b : Byte) : (s.setReg x b).keys = s.keys := rfl
@[simp] theorem State.setReg_draw (x : Reg) (b : Byte) : (s.setReg x b).draw = s.draw := rfl

/-! ### setI -/

@[simp] theorem State.setI_v (w : Word) : (s.setI w).v = s.v := rfl
@[simp] theorem State.setI_i (w : Word) : (s.setI w).i = w := rfl
@[simp] theorem State.setI_pc (w : Word) : (s.setI w).pc = s.pc := rfl
@[simp] theorem State.setI_sp (w : Word) : (s.setI w).sp = s.sp := rfl
@[simp] theorem State.setI_stack (w : Word) : (s.setI w).stack = s.stack := rfl
@[simp] theorem State.setI_dt (w : Word) : (s.setI w).dt = s.dt := rfl
@[simp] theorem State.setI_st (w : Word) : (s.setI w).st = s.st := rfl
@[simp] theorem State.setI_mem (w : Word) : (s.setI w).mem = s.mem := rfl
@[simp] theorem State.setI_fb (w : Word) : (s.setI w).fb = s.fb := rfl
@[simp] theorem State.setI_keys (w : Word) : (s.setI w).keys = s.keys := rfl
@[simp] theorem State.setI_draw (w : Word) : (s.setI w).draw = s.draw := rfl

/-! ### setPc -/

@[simp] theorem State.setPc_v (w : Word) : (s.setPc w).v = s.v := rfl
@[simp] theorem State.setPc_i (w : Word) : (s.setPc w).i = s.i := rfl
@[simp] theorem State.setPc_pc (w : Word) : (s.setPc w).pc = w := rfl
@[simp] theorem State.setPc_sp (w : Word) : (s.setPc w).sp = s.sp := rfl
@[simp] theorem State.setPc_stack (w : Word) : (s.setPc w).stack = s.stack := rfl
@[simp] theorem State.setPc_dt (w : Word) : (s.setPc w).dt = s.dt := rfl
@[simp] theorem State.setPc_st (w : Word) : (s.setPc w).st = s.st := rfl
@[simp] theorem State.setPc_mem (w : Word) : (s.setPc w).mem = s.mem := rfl
@[simp] theorem State.setPc_fb (w : Word) : (s.setPc w).fb = s.fb := rfl
@[simp] theorem State.setPc_keys (w : Word) : (s.setPc w).keys = s.keys := rfl
@[simp] theorem State.setPc_draw (w : Word) : (s.setPc w).draw = s.draw := rfl

/-! ### advance -/

@[simp] theorem State.advance_v : s.advance.v = s.v := rfl
@[simp] theorem State.advance_i : s.advance.i = s.i := rfl
@[simp] theorem State.advance_pc : s.advance.pc = s.pc + 2#16 := rfl
@[simp] theorem State.advance_sp : s.advance.sp = s.sp := rfl
@[simp] theorem State.advance_stack : s.advance.stack = s.stack := rfl
@[simp] theorem State.advance_dt : s.advance.dt = s.dt := rfl
@[simp] theorem State.advance_st : s.advance.st = s.st := rfl
@[simp] theorem State.advance_mem : s.advance.mem = s.mem := rfl
@[simp] theorem State.advance_fb : s.advance.fb = s.fb := rfl
@[simp] theorem State.advance_keys : s.advance.keys = s.keys := rfl
@[simp] theorem State.advance_draw : s.advance.draw = s.draw := rfl

/-! ### setSp -/

@[simp] theorem State.setSp_v (n : Fin 17) : (s.setSp n).v = s.v := rfl
@[simp] theorem State.setSp_i (n : Fin 17) : (s.setSp n).i = s.i := rfl
@[simp] theorem State.setSp_pc (n : Fin 17) : (s.setSp n).pc = s.pc := rfl
@[simp] theorem State.setSp_sp (n : Fin 17) : (s.setSp n).sp = n := rfl
@[simp] theorem State.setSp_stack (n : Fin 17) : (s.setSp n).stack = s.stack := rfl
@[simp] theorem State.setSp_dt (n : Fin 17) : (s.setSp n).dt = s.dt := rfl
@[simp] theorem State.setSp_st (n : Fin 17) : (s.setSp n).st = s.st := rfl
@[simp] theorem State.setSp_mem (n : Fin 17) : (s.setSp n).mem = s.mem := rfl
@[simp] theorem State.setSp_fb (n : Fin 17) : (s.setSp n).fb = s.fb := rfl
@[simp] theorem State.setSp_keys (n : Fin 17) : (s.setSp n).keys = s.keys := rfl
@[simp] theorem State.setSp_draw (n : Fin 17) : (s.setSp n).draw = s.draw := rfl

/-! ### setStack -/

@[simp] theorem State.setStack_v (j : Fin 16) (w : Word) : (s.setStack j w).v = s.v := rfl
@[simp] theorem State.setStack_i (j : Fin 16) (w : Word) : (s.setStack j w).i = s.i := rfl
@[simp] theorem State.setStack_pc (j : Fin 16) (w : Word) : (s.setStack j w).pc = s.pc := rfl
@[simp] theorem State.setStack_sp (j : Fin 16) (w : Word) : (s.setStack j w).sp = s.sp := rfl
@[simp] theorem State.setStack_stack (j : Fin 16) (w : Word) : (s.setStack j w).stack = s.stack.set j.val w := rfl
@[simp] theorem State.setStack_dt (j : Fin 16) (w : Word) : (s.setStack j w).dt = s.dt := rfl
@[simp] theorem State.setStack_st (j : Fin 16) (w : Word) : (s.setStack j w).st = s.st := rfl
@[simp] theorem State.setStack_mem (j : Fin 16) (w : Word) : (s.setStack j w).mem = s.mem := rfl
@[simp] theorem State.setStack_fb (j : Fin 16) (w : Word) : (s.setStack j w).fb = s.fb := rfl
@[simp] theorem State.setStack_keys (j : Fin 16) (w : Word) : (s.setStack j w).keys = s.keys := rfl
@[simp] theorem State.setStack_draw (j : Fin 16) (w : Word) : (s.setStack j w).draw = s.draw := rfl

/-! ### setTimers -/

@[simp] theorem State.setTimers_v (d t : Byte) : (s.setTimers d t).v = s.v := rfl
@[simp] theorem State.setTimers_i (d t : Byte) : (s.setTimers d t).i = s.i := rfl
@[simp] theorem State.setTimers_pc (d t : Byte) : (s.setTimers d t).pc = s.pc := rfl
@[simp] theorem State.setTimers_sp (d t : Byte) : (s.setTimers d t).sp = s.sp := rfl
@[simp] theorem State.setTimers_stack (d t : Byte) : (s.setTimers d t).stack = s.stack := rfl
@[simp] theorem State.setTimers_dt (d t : Byte) : (s.setTimers d t).dt = d := rfl
@[simp] theorem State.setTimers_st (d t : Byte) : (s.setTimers d t).st = t := rfl
@[simp] theorem State.setTimers_mem (d t : Byte) : (s.setTimers d t).mem = s.mem := rfl
@[simp] theorem State.setTimers_fb (d t : Byte) : (s.setTimers d t).fb = s.fb := rfl
@[simp] theorem State.setTimers_keys (d t : Byte) : (s.setTimers d t).keys = s.keys := rfl
@[simp] theorem State.setTimers_draw (d t : Byte) : (s.setTimers d t).draw = s.draw := rfl

/-! ### setFb -/

@[simp] theorem State.setFb_v (fb : Framebuffer) : (s.setFb fb).v = s.v := rfl
@[simp] theorem State.setFb_i (fb : Framebuffer) : (s.setFb fb).i = s.i := rfl
@[simp] theorem State.setFb_pc (fb : Framebuffer) : (s.setFb fb).pc = s.pc := rfl
@[simp] theorem State.setFb_sp (fb : Framebuffer) : (s.setFb fb).sp = s.sp := rfl
@[simp] theorem State.setFb_stack (fb : Framebuffer) : (s.setFb fb).stack = s.stack := rfl
@[simp] theorem State.setFb_dt (fb : Framebuffer) : (s.setFb fb).dt = s.dt := rfl
@[simp] theorem State.setFb_st (fb : Framebuffer) : (s.setFb fb).st = s.st := rfl
@[simp] theorem State.setFb_mem (fb : Framebuffer) : (s.setFb fb).mem = s.mem := rfl
@[simp] theorem State.setFb_fb (fb : Framebuffer) : (s.setFb fb).fb = fb := rfl
@[simp] theorem State.setFb_keys (fb : Framebuffer) : (s.setFb fb).keys = s.keys := rfl
@[simp] theorem State.setFb_draw (fb : Framebuffer) : (s.setFb fb).draw = s.draw := rfl

/-! ### setDraw -/

@[simp] theorem State.setDraw_v (b : Bool) : (s.setDraw b).v = s.v := rfl
@[simp] theorem State.setDraw_i (b : Bool) : (s.setDraw b).i = s.i := rfl
@[simp] theorem State.setDraw_pc (b : Bool) : (s.setDraw b).pc = s.pc := rfl
@[simp] theorem State.setDraw_sp (b : Bool) : (s.setDraw b).sp = s.sp := rfl
@[simp] theorem State.setDraw_stack (b : Bool) : (s.setDraw b).stack = s.stack := rfl
@[simp] theorem State.setDraw_dt (b : Bool) : (s.setDraw b).dt = s.dt := rfl
@[simp] theorem State.setDraw_st (b : Bool) : (s.setDraw b).st = s.st := rfl
@[simp] theorem State.setDraw_mem (b : Bool) : (s.setDraw b).mem = s.mem := rfl
@[simp] theorem State.setDraw_fb (b : Bool) : (s.setDraw b).fb = s.fb := rfl
@[simp] theorem State.setDraw_keys (b : Bool) : (s.setDraw b).keys = s.keys := rfl
@[simp] theorem State.setDraw_draw (b : Bool) : (s.setDraw b).draw = b := rfl

/-! ### setKey -/

@[simp] theorem State.setKey_v (k : Fin 16) (b : Bool) : (s.setKey k b).v = s.v := rfl
@[simp] theorem State.setKey_i (k : Fin 16) (b : Bool) : (s.setKey k b).i = s.i := rfl
@[simp] theorem State.setKey_pc (k : Fin 16) (b : Bool) : (s.setKey k b).pc = s.pc := rfl
@[simp] theorem State.setKey_sp (k : Fin 16) (b : Bool) : (s.setKey k b).sp = s.sp := rfl
@[simp] theorem State.setKey_stack (k : Fin 16) (b : Bool) : (s.setKey k b).stack = s.stack := rfl
@[simp] theorem State.setKey_dt (k : Fin 16) (b : Bool) : (s.setKey k b).dt = s.dt := rfl
@[simp] theorem State.setKey_st (k : Fin 16) (b : Bool) : (s.setKey k b).st = s.st := rfl
@[simp] theorem State.setKey_mem (k : Fin 16) (b : Bool) : (s.setKey k b).mem = s.mem := rfl
@[simp] theorem State.setKey_fb (k : Fin 16) (b : Bool) : (s.setKey k b).fb = s.fb := rfl
@[simp] theorem State.setKey_keys (k : Fin 16) (b : Bool) : (s.setKey k b).keys = s.keys.set k.val b := rfl
@[simp] theorem State.setKey_draw (k : Fin 16) (b : Bool) : (s.setKey k b).draw = s.draw := rfl

/-! ### setCollision -/

@[simp] theorem State.setCollision_v (hit : Bool) : (s.setCollision hit).v = s.v.set vf.val (collisionByte hit) := rfl
@[simp] theorem State.setCollision_i (hit : Bool) : (s.setCollision hit).i = s.i := rfl
@[simp] theorem State.setCollision_pc (hit : Bool) : (s.setCollision hit).pc = s.pc := rfl
@[simp] theorem State.setCollision_sp (hit : Bool) : (s.setCollision hit).sp = s.sp := rfl
@[simp] theorem State.setCollision_stack (hit : Bool) : (s.setCollision hit).stack = s.stack := rfl
@[simp] theorem State.setCollision_dt (hit : Bool) : (s.setCollision hit).dt = s.dt := rfl
@[simp] theorem State.setCollision_st (hit : Bool) : (s.setCollision hit).st = s.st := rfl
@[simp] theorem State.setCollision_mem (hit : Bool) : (s.setCollision hit).mem = s.mem := rfl
@[simp] theorem State.setCollision_fb (hit : Bool) : (s.setCollision hit).fb = s.fb := rfl
@[simp] theorem State.setCollision_keys (hit : Bool) : (s.setCollision hit).keys = s.keys := rfl
@[simp] theorem State.setCollision_draw (hit : Bool) : (s.setCollision hit).draw = s.draw := rfl

/-! ### raiseDraw -/

@[simp] theorem State.raiseDraw_v : s.raiseDraw.v = s.v := rfl
@[simp] theorem State.raiseDraw_i : s.raiseDraw.i = s.i := rfl
@[simp] theorem State.raiseDraw_pc : s.raiseDraw.pc = s.pc := rfl
@[simp] theorem State.raiseDraw_sp : s.raiseDraw.sp = s.sp := rfl
@[simp] theorem State.raiseDraw_stack : s.raiseDraw.stack = s.stack := rfl
@[simp] theorem State.raiseDraw_dt : s.raiseDraw.dt = s.dt := rfl
@[simp] theorem State.raiseDraw_st : s.raiseDraw.st = s.st := rfl
@[simp] theorem State.raiseDraw_mem : s.raiseDraw.mem = s.mem := rfl
@[simp] theorem State.raiseDraw_fb : s.raiseDraw.fb = s.fb := rfl
@[simp] theorem State.raiseDraw_keys : s.raiseDraw.keys = s.keys := rfl
@[simp] theorem State.raiseDraw_draw : s.raiseDraw.draw = true := rfl

/-! ### memWrite and tick -/

@[simp] theorem memWrite_v (a : Fin 4096) (b : Byte) : (memWrite a b s).v = s.v := rfl
@[simp] theorem memWrite_i (a : Fin 4096) (b : Byte) : (memWrite a b s).i = s.i := rfl
@[simp] theorem memWrite_pc (a : Fin 4096) (b : Byte) : (memWrite a b s).pc = s.pc := rfl
@[simp] theorem memWrite_sp (a : Fin 4096) (b : Byte) : (memWrite a b s).sp = s.sp := rfl
@[simp] theorem memWrite_stack (a : Fin 4096) (b : Byte) : (memWrite a b s).stack = s.stack := rfl
@[simp] theorem memWrite_dt (a : Fin 4096) (b : Byte) : (memWrite a b s).dt = s.dt := rfl
@[simp] theorem memWrite_st (a : Fin 4096) (b : Byte) : (memWrite a b s).st = s.st := rfl
@[simp] theorem memWrite_mem (a : Fin 4096) (b : Byte) : (memWrite a b s).mem = s.mem.write a.val b := rfl
@[simp] theorem memWrite_fb (a : Fin 4096) (b : Byte) : (memWrite a b s).fb = s.fb := rfl
@[simp] theorem memWrite_keys (a : Fin 4096) (b : Byte) : (memWrite a b s).keys = s.keys := rfl
@[simp] theorem memWrite_draw (a : Fin 4096) (b : Byte) : (memWrite a b s).draw = s.draw := rfl
@[simp] theorem tick_v : (tick s).v = s.v := rfl
@[simp] theorem tick_i : (tick s).i = s.i := rfl
@[simp] theorem tick_pc : (tick s).pc = s.pc := rfl
@[simp] theorem tick_sp : (tick s).sp = s.sp := rfl
@[simp] theorem tick_stack : (tick s).stack = s.stack := rfl
@[simp] theorem tick_dt : (tick s).dt = countdown s.dt := rfl
@[simp] theorem tick_st : (tick s).st = countdown s.st := rfl
@[simp] theorem tick_mem : (tick s).mem = s.mem := rfl
@[simp] theorem tick_fb : (tick s).fb = s.fb := rfl
@[simp] theorem tick_keys : (tick s).keys = s.keys := rfl
@[simp] theorem tick_draw : (tick s).draw = s.draw := rfl

/-! ### Reading through the accessors -/

theorem State.reg_setReg (x y : Reg) (b : Byte) : (s.setReg x b).reg y = if y = x then b else s.reg y := by
  simp only [State.reg, State.setReg, Vector.getElem_set]
  simp only [eq_comm (a := x.val), Fin.val_inj]

@[simp] theorem State.reg_setReg_same (x : Reg) (b : Byte) : (s.setReg x b).reg x = b := by simp [State.reg_setReg]

theorem State.reg_setReg_other {x y : Reg} (h : y ≠ x) (b : Byte) : (s.setReg x b).reg y = s.reg y := by
  simp [State.reg_setReg, h]

theorem State.reg_setCollision (y : Reg) (hit : Bool) :
    (s.setCollision hit).reg y = if y = vf then collisionByte hit else s.reg y := s.reg_setReg vf y _

theorem State.stackAt_setStack (j k : Fin 16) (w : Word) :
    (s.setStack j w).stackAt k = if k = j then w else s.stackAt k := by
  simp only [State.stackAt, State.setStack, Vector.getElem_set]
  simp only [eq_comm (a := j.val), Fin.val_inj]

theorem State.key_setKey (j k : Fin 16) (b : Bool) : (s.setKey j b).key k = if k = j then b else s.key k := by
  simp only [State.key, State.setKey, Vector.getElem_set]
  simp only [eq_comm (a := j.val), Fin.val_inj]

@[simp] theorem State.reg_setI (w : Word) (y : Reg) : (s.setI w).reg y = s.reg y := rfl
@[simp] theorem State.reg_setPc (w : Word) (y : Reg) : (s.setPc w).reg y = s.reg y := rfl
@[simp] theorem State.reg_advance (y : Reg) : s.advance.reg y = s.reg y := rfl
@[simp] theorem State.reg_setSp (n : Fin 17) (y : Reg) : (s.setSp n).reg y = s.reg y := rfl
@[simp] theorem State.reg_setStack (j : Fin 16) (w : Word) (y : Reg) : (s.setStack j w).reg y = s.reg y := rfl
@[simp] theorem State.reg_setTimers (d t : Byte) (y : Reg) : (s.setTimers d t).reg y = s.reg y := rfl
@[simp] theorem State.reg_setFb (fb : Framebuffer) (y : Reg) : (s.setFb fb).reg y = s.reg y := rfl
@[simp] theorem State.reg_setDraw (b : Bool) (y : Reg) : (s.setDraw b).reg y = s.reg y := rfl
@[simp] theorem State.reg_setKey (k : Fin 16) (b : Bool) (y : Reg) : (s.setKey k b).reg y = s.reg y := rfl
@[simp] theorem State.reg_raiseDraw (y : Reg) : s.raiseDraw.reg y = s.reg y := rfl
@[simp] theorem State.stackAt_setReg (x : Reg) (b : Byte) (j : Fin 16) : (s.setReg x b).stackAt j = s.stackAt j := rfl
@[simp] theorem State.stackAt_setI (w : Word) (j : Fin 16) : (s.setI w).stackAt j = s.stackAt j := rfl
@[simp] theorem State.stackAt_setPc (w : Word) (j : Fin 16) : (s.setPc w).stackAt j = s.stackAt j := rfl
@[simp] theorem State.stackAt_advance (j : Fin 16) : s.advance.stackAt j = s.stackAt j := rfl
@[simp] theorem State.stackAt_setSp (n : Fin 17) (j : Fin 16) : (s.setSp n).stackAt j = s.stackAt j := rfl
@[simp] theorem State.stackAt_setTimers (d t : Byte) (j : Fin 16) : (s.setTimers d t).stackAt j = s.stackAt j := rfl
@[simp] theorem State.stackAt_setFb (fb : Framebuffer) (j : Fin 16) : (s.setFb fb).stackAt j = s.stackAt j := rfl
@[simp] theorem State.stackAt_setDraw (b : Bool) (j : Fin 16) : (s.setDraw b).stackAt j = s.stackAt j := rfl
@[simp] theorem State.stackAt_setKey (k : Fin 16) (b : Bool) (j : Fin 16) : (s.setKey k b).stackAt j = s.stackAt j := rfl
@[simp] theorem State.stackAt_setCollision (hit : Bool) (j : Fin 16) : (s.setCollision hit).stackAt j = s.stackAt j := rfl
@[simp] theorem State.stackAt_raiseDraw (j : Fin 16) : s.raiseDraw.stackAt j = s.stackAt j := rfl
@[simp] theorem reg_tick (y : Reg) : (tick s).reg y = s.reg y := rfl
@[simp] theorem stackAt_tick (j : Fin 16) : (tick s).stackAt j = s.stackAt j := rfl
@[simp] theorem reg_memWrite (a : Fin 4096) (b : Byte) (y : Reg) : (memWrite a b s).reg y = s.reg y := rfl
@[simp] theorem stackAt_memWrite (a : Fin 4096) (b : Byte) (j : Fin 16) : (memWrite a b s).stackAt j = s.stackAt j := rfl

/-- Two states with equal fields are equal. -/
theorem State.eq_of_fields {s t : State} (hv : s.v = t.v) (hi : s.i = t.i) (hpc : s.pc = t.pc) (hsp : s.sp = t.sp)
    (hstack : s.stack = t.stack) (hdt : s.dt = t.dt) (hst : s.st = t.st) (hmem : s.mem = t.mem) (hfb : s.fb = t.fb)
    (hkeys : s.keys = t.keys) (hdraw : s.draw = t.draw) : s = t := by
  cases s; cases t; simp_all

end Sys2Proof.Machine
end

