-- ==== Sys2Proof/Laws/Ops.lean ====
section
/-! SUPPORT. One lemma per shared operation that says all it can answer: checked reads, fetch, push, pop, the counters. -/

namespace Sys2Proof.Machine

/-! ### Checked reads -/

theorem memRead1_in (access : MemAccess) {addr : Nat} (h : addr ≤ 0xFFF) (s : State) :
    memRead1 access addr s = .ok (s.mem.read addr) := by
  have : addr < 4096 := by omega
  simp [memRead1, this]

theorem memRead1_out (access : MemAccess) {addr : Nat} (h : 0xFFF < addr) (s : State) :
    memRead1 access addr s = .error (.memoryOutOfBounds access addr s.pc) := by
  have : ¬ addr < 4096 := by omega
  simp [memRead1, this]

theorem memRead2_in (access : MemAccess) {addr : Nat} (h : addr ≤ 0xFFE) (s : State) :
    memRead2 access addr s = .ok (wordOfBytes (s.mem.read addr) (s.mem.read (addr + 1))) := by
  simp [memRead2, memRead1_in access (show addr ≤ 0xFFF by omega) s, memRead1_in access (show addr + 1 ≤ 0xFFF by omega) s]

/-- The fault of a two-byte read names the first byte out of range. -/
theorem memRead2_out (access : MemAccess) {addr : Nat} (h : 0xFFE < addr) (s : State) :
    memRead2 access addr s = .error (.memoryOutOfBounds access (max addr 0x1000) s.pc) := by
  by_cases h' : addr ≤ 0xFFF
  · have ha : addr = 0xFFF := by omega
    subst ha
    simp [memRead2, memRead1_in access (show 0xFFF ≤ 0xFFF by omega) s, memRead1_out access (show 0xFFF < 0xFFF + 1 by omega) s]
  · rw [Nat.max_eq_left (by omega)]
    simp [memRead2, memRead1_out access (show 0xFFF < addr by omega) s]

theorem fetch_in {s : State} (h : s.pc.toNat ≤ 0xFFE) :
    fetch s = .ok (wordOfBytes (s.mem.read s.pc.toNat) (s.mem.read (s.pc.toNat + 1))) := memRead2_in .fetch h s

theorem fetch_out {s : State} (h : 0xFFE < s.pc.toNat) :
    fetch s = .error (.memoryOutOfBounds .fetch (max s.pc.toNat 0x1000) s.pc) := memRead2_out .fetch h s

/-- A fetch that succeeds read two existing bytes. -/
theorem fetch_ok_iff {s : State} {op : Word} :
    fetch s = .ok op ↔
      s.pc.toNat ≤ 0xFFE ∧ wordOfBytes (s.mem.read s.pc.toNat) (s.mem.read (s.pc.toNat + 1)) = op := by
  by_cases h : s.pc.toNat ≤ 0xFFE
  · simp [fetch_in h, h]
  · simp [fetch_out (show 0xFFE < s.pc.toNat by omega), h]

/-! ### The stack -/

theorem pop_empty (op : Word) {s : State} (h : s.sp.val = 0) : pop op s = .error (.stackUnderflow s.pc op) := by
  simp [pop, h]

theorem pop_some (op : Word) {s : State} (h : s.sp.val ≠ 0) :
    pop op s = .ok (s.stackAt ⟨s.sp.val - 1, by omega⟩, s.setSp ⟨s.sp.val - 1, by omega⟩) := by
  simp [pop, h]

theorem push_free (op : Word) {s : State} (h : s.sp.val < 16) :
    push op s = .next ((s.setStack ⟨s.sp.val, h⟩ s.pc).setSp ⟨s.sp.val + 1, by omega⟩) := by
  simp [push, h]

theorem push_full (op : Word) {s : State} (h : s.sp.val = 16) : push op s = .fault (.stackOverflow s.pc op) := by
  simp [push, h, raise]

/-! ### Counters and immediates -/

/-- A timer after the tick: one less, never below 0. -/
theorem countdown_toNat (b : Byte) : (countdown b).toNat = b.toNat - 1 := by
  simp only [countdown]
  split
  · next h => simp [h]
  · next h =>
    have hb : b.toNat ≠ 0 := fun h0 => h (BitVec.eq_of_toNat_eq h0)
    have := b.isLt
    simp only [BitVec.toNat_sub, BitVec.toNat_ofNat]
    omega

@[simp] theorem countdown_zero : countdown 0#8 = 0#8 := rfl

theorem countdown_eq_self_iff (b : Byte) : countdown b = b ↔ b = 0#8 := by
  constructor
  · intro h
    have := countdown_toNat b
    rw [h] at this
    exact BitVec.eq_of_toNat_eq (by simp only [BitVec.toNat_ofNat]; omega)
  · rintro rfl; rfl

theorem zext16_toNat (nnn : Addr12) : (zext16 nnn).toNat = nnn.toNat := by
  simp only [zext16, BitVec.toNat_setWidth]
  have := nnn.isLt
  omega

/-- `PC + 2` on the natural numbers, where it does not wrap. -/
theorem pc_add_two_toNat {w : Word} (h : w.toNat ≤ 0xFFFD) : (w + 2#16).toNat = w.toNat + 2 := by
  simp only [BitVec.toNat_add, BitVec.toNat_ofNat]
  omega

/-- `PC + 2` is never `PC`: a 16-bit register does not wrap onto itself in two steps. -/
theorem pc_add_two_ne (w : Word) : w + 2#16 ≠ w := by
  intro h
  have := congrArg BitVec.toNat h
  simp only [BitVec.toNat_add, BitVec.toNat_ofNat] at this
  have := w.isLt
  omega

end Sys2Proof.Machine
end

