-- ==== Sys2Proof/Laws/PerInstr.lean ====
section
/-! SUPPORT. Statements about every instruction, one lemma per constructor. -/

namespace Sys2Proof.Laws

/-- The word of an instruction selects the opcode map's row of the instruction's own mnemonic (30_encoding.md R44). -/
def SelectsRow.Statement (i : Instr) : Prop :=
  ∃ row ∈ opcodeMap, row.mnemonic = i.mnemonic ∧ row.selects (encode i) = true

theorem SelectsRow.cls (ign : BitVec 8) : SelectsRow.Statement (.cls ign) :=
  ⟨⟨"CLS", 0xF00F#16, 0x0000#16⟩, by simp [opcodeMap], rfl, beq_iff_eq.2
    ((and_F00F_eq_iff _ 0x0#4 0x0#4).2 ⟨BitVec.eq_of_toNat_eq (by rw [fieldF_toNat, encode_cls_toNat]; simp; omega),
      BitVec.eq_of_toNat_eq (by rw [fieldN_toNat, encode_cls_toNat]; simp)⟩)⟩

theorem SelectsRow.ret (ign : BitVec 8) : SelectsRow.Statement (.ret ign) :=
  ⟨⟨"RET", 0xF00F#16, 0x000E#16⟩, by simp [opcodeMap], rfl, beq_iff_eq.2
    ((and_F00F_eq_iff _ 0x0#4 0xE#4).2 ⟨BitVec.eq_of_toNat_eq (by rw [fieldF_toNat, encode_ret_toNat]; simp; omega),
      BitVec.eq_of_toNat_eq (by rw [fieldN_toNat, encode_ret_toNat]; simp)⟩)⟩

theorem SelectsRow.jp (nnn : Addr12) : SelectsRow.Statement (.jp nnn) :=
  ⟨⟨"JP", 0xF000#16, 0x1000#16⟩, by simp [opcodeMap], rfl, beq_iff_eq.2
    ((and_F000_eq_iff _ 0x1#4).2 (BitVec.eq_of_toNat_eq (by rw [fieldF_toNat, encode_jp_toNat]; simp; omega)))⟩

theorem SelectsRow.ldV (x : Reg) (nn : Byte) : SelectsRow.Statement (.ldV x nn) :=
  ⟨⟨"LD_V", 0xF000#16, 0x6000#16⟩, by simp [opcodeMap], rfl, beq_iff_eq.2
    ((and_F000_eq_iff _ 0x6#4).2 (BitVec.eq_of_toNat_eq (by rw [fieldF_toNat, encode_ldV_toNat]; simp; omega)))⟩

theorem SelectsRow.addV (x : Reg) (nn : Byte) : SelectsRow.Statement (.addV x nn) :=
  ⟨⟨"ADD_V", 0xF000#16, 0x7000#16⟩, by simp [opcodeMap], rfl, beq_iff_eq.2
    ((and_F000_eq_iff _ 0x7#4).2 (BitVec.eq_of_toNat_eq (by rw [fieldF_toNat, encode_addV_toNat]; simp; omega)))⟩

theorem SelectsRow.ldI (nnn : Addr12) : SelectsRow.Statement (.ldI nnn) :=
  ⟨⟨"LD_I", 0xF000#16, 0xA000#16⟩, by simp [opcodeMap], rfl, beq_iff_eq.2
    ((and_F000_eq_iff _ 0xA#4).2 (BitVec.eq_of_toNat_eq (by rw [fieldF_toNat, encode_ldI_toNat]; simp; omega)))⟩

theorem SelectsRow.drw (x y : Reg) (n : BitVec 4) : SelectsRow.Statement (.drw x y n) :=
  ⟨⟨"DRW", 0xF000#16, 0xD000#16⟩, by simp [opcodeMap], rfl, beq_iff_eq.2
    ((and_F000_eq_iff _ 0xD#4).2 (BitVec.eq_of_toNat_eq (by rw [fieldF_toNat, encode_drw_toNat]; simp; omega)))⟩

end Sys2Proof.Laws
end

