-- ==== Sys2Proof/Laws/Sprite.lean ====
section
/-! SUPPORT. The sprite unit: its targets rise strictly, what drawing them leaves, and when and with what the validation
fails. -/

namespace Sys2Proof.Machine

/-! ### Targets -/

theorem mem_rowTargets {b : Byte} {ox oy r k : Nat} :
    k ∈ rowTargets b ox oy r ↔ ∃ c, c < 8 ∧ spriteBit b c = true ∧ cellIndex ox oy r c = k := by
  simp [rowTargets, and_assoc]

theorem mem_spriteTargets {m : Memory} {i : Word} {ox oy h k : Nat} :
    k ∈ spriteTargets m i ox oy h ↔
      ∃ r, r < h ∧ ∃ c, c < 8 ∧ spriteBit (m.read (rowAddr i r)) c = true ∧ cellIndex ox oy r c = k := by
  simp [spriteTargets, mem_rowTargets]

theorem rowTargets_rising (b : Byte) (ox oy r : Nat) : (rowTargets b ox oy r).Pairwise (· < ·) := by
  refine List.Pairwise.map _ (fun c d h => ?_) (List.Pairwise.filter _ List.pairwise_lt_range)
  simp only [cellIndex]; omega

/-- The scan visits strictly rising indices: the targets of one DRW are pairwise distinct. -/
theorem spriteTargets_rising (m : Memory) (i : Word) (ox oy h : Nat) : (spriteTargets m i ox oy h).Pairwise (· < ·) := by
  rw [spriteTargets, List.pairwise_flatMap]
  refine ⟨fun r _ => rowTargets_rising _ _ _ _, List.Pairwise.imp (fun {r q} hrq x hx y hy => ?_) List.pairwise_lt_range⟩
  obtain ⟨c, hc, -, rfl⟩ := mem_rowTargets.1 hx
  obtain ⟨d, -, -, rfl⟩ := mem_rowTargets.1 hy
  simp only [cellIndex, Config.fbW]
  omega

theorem spriteTargets_nodup (m : Memory) (i : Word) (ox oy h : Nat) : (spriteTargets m i ox oy h).Nodup :=
  (spriteTargets_rising m i ox oy h).imp fun h => Nat.ne_of_lt h

/-! ### Drawing -/

theorem toggleCell_cell (fb : Framebuffer) {k : Nat} (hk : k < 2048) (j : Nat) :
    (toggleCell fb k).cell j = (fb.cell j ^^ decide (j = k)) := by
  simp only [toggleCell, Framebuffer.cell, BitVec.getLsbD_xor, BitVec.getLsbD_shiftLeft, BitVec.getLsbD_one]
  congr 1
  by_cases h : j = k
  · subst h; simp [hk]
  · by_cases h1 : j < k
    · simp [h, h1]
    · simp [h, show ¬ j - k = 0 by omega]

/-- Drawing distinct in-range targets toggles exactly them. -/
theorem foldl_drawCell_cell {ts : List Nat} (hnd : ts.Nodup) (hlt : ∀ k ∈ ts, k < 2048) (cv : Canvas) (j : Nat) :
    (ts.foldl drawCell cv).fb.cell j = (cv.fb.cell j ^^ decide (j ∈ ts)) := by
  induction ts generalizing cv with
  | nil => simp
  | cons k ts ih =>
    rw [List.nodup_cons] at hnd
    rw [List.foldl_cons, ih hnd.2 (fun x hx => hlt x (List.mem_cons_of_mem _ hx))]
    simp only [drawCell, toggleCell_cell cv.fb (hlt k List.mem_cons_self)]
    by_cases hj : j = k
    · subst hj; simp [hnd.1]
    · simp [hj]

/-- The collision flag is set iff it was or some target was set before the drawing. -/
theorem foldl_drawCell_hit {ts : List Nat} (hnd : ts.Nodup) (hlt : ∀ k ∈ ts, k < 2048) (cv : Canvas) :
    (ts.foldl drawCell cv).hit = (cv.hit || ts.any cv.fb.cell) := by
  induction ts generalizing cv with
  | nil => simp
  | cons k ts ih =>
    rw [List.nodup_cons] at hnd
    rw [List.foldl_cons, ih hnd.2 (fun x hx => hlt x (List.mem_cons_of_mem _ hx))]
    have hany : ts.any (toggleCell cv.fb k).cell = ts.any cv.fb.cell := by
      rw [Bool.eq_iff_iff]
      simp only [List.any_eq_true]
      refine exists_congr fun x => and_congr_right fun hx => ?_
      have hxk : x ≠ k := fun h => hnd.1 (h ▸ hx)
      rw [toggleCell_cell cv.fb (hlt k List.mem_cons_self)]
      simp [hxk]
    simp only [drawCell, hany, List.any_cons, Bool.or_assoc]

theorem drawTargets_cell {ts : List Nat} (hnd : ts.Nodup) (hlt : ∀ k ∈ ts, k < 2048) (fb : Framebuffer) (j : Nat) :
    (drawTargets fb ts).fb.cell j = (fb.cell j ^^ decide (j ∈ ts)) := foldl_drawCell_cell hnd hlt _ j

theorem drawTargets_hit {ts : List Nat} (hnd : ts.Nodup) (hlt : ∀ k ∈ ts, k < 2048) (fb : Framebuffer) :
    (drawTargets fb ts).hit = ts.any fb.cell := (foldl_drawCell_hit hnd hlt _).trans (Bool.false_or _)

/-- Framebuffers with equal cells are equal. -/
theorem Framebuffer.ext_cell {f g : Framebuffer} (h : ∀ k, k < 2048 → f.cell k = g.cell k) : f = g :=
  BitVec.eq_of_getLsbD_eq h

@[simp] theorem Framebuffer.cell_zero (k : Nat) : Framebuffer.cell 0#2048 k = false := by
  simp [Framebuffer.cell]

/-! ### Validation -/

/-- The first hit of a scan over `0 .. n-1`. -/
theorem findSome_range_eq_some {β : Type} {f : Nat → Option β} {n : Nat} {b : β} :
    (List.range n).findSome? f = some b ↔ ∃ k, k < n ∧ f k = some b ∧ ∀ j, j < k → f j = none := by
  induction n with
  | zero => simp
  | succ n ih =>
    rw [List.range_succ, List.findSome?_append, Option.or_eq_some_iff, ih, List.findSome?_eq_none_iff]
    simp only [List.mem_range, List.findSome?_singleton]
    constructor
    · rintro (⟨k, hk, hf, hj⟩ | ⟨hall, hf⟩)
      · exact ⟨k, by omega, hf, hj⟩
      · exact ⟨n, by omega, hf, hall⟩
    · rintro ⟨k, hk, hf, hj⟩
      by_cases hkn : k = n
      · subst hkn; exact .inr ⟨hj, hf⟩
      · exact .inl ⟨k, by omega, hf, hj⟩

theorem checkCell_eq_none {op pc : Word} {ox oy r : Nat} {b : Byte} {c : Nat} :
    checkCell op pc ox oy r b c = none ↔ (spriteBit b c = true → cellIndex ox oy r c < 2048) := by
  simp only [checkCell, Config.fbLen]
  split
  · next h =>
    split
    · next hb => simp [hb, h]
    · next hb => simp [hb]
  · next h => simp only [true_iff]; intro; omega

theorem checkCell_eq_some {op pc : Word} {ox oy r : Nat} {b : Byte} {c : Nat} {f : Fault} :
    checkCell op pc ox oy r b c = some f ↔
      spriteBit b c = true ∧ 2048 ≤ cellIndex ox oy r c ∧ f = .framebufferOutOfBounds (cellIndex ox oy r c) pc op := by
  simp only [checkCell, Config.fbLen]
  split
  · next h =>
    split
    · next hb => simp [hb, h, eq_comm]
    · next hb => simp [hb]
  · next h => simp [h]

/-- What a row's check answers where the row's byte exists. -/
theorem checkRow_in {op : Word} {s : State} {ox oy r : Nat} (h : rowAddr s.i r ≤ 0xFFF) :
    checkRow op s ox oy r =
      (List.range 8).findSome? (checkCell op s.pc ox oy r (s.mem.read (rowAddr s.i r))) := by
  simp [checkRow, memRead1_in (.sprite op) h s]

/-- What a row's check answers where the row's byte does not exist. -/
theorem checkRow_out {op : Word} {s : State} {ox oy r : Nat} (h : 0xFFF < rowAddr s.i r) :
    checkRow op s ox oy r = some (.memoryOutOfBounds (.sprite op) (rowAddr s.i r) s.pc) := by
  simp [checkRow, memRead1_out (.sprite op) h s]

/-- A row passes iff its byte exists and every set bit lands inside the framebuffer. -/
theorem checkRow_eq_none {op : Word} {s : State} {ox oy r : Nat} :
    checkRow op s ox oy r = none ↔
      rowAddr s.i r ≤ 0xFFF ∧
        ∀ c, c < 8 → spriteBit (s.mem.read (rowAddr s.i r)) c = true → cellIndex ox oy r c < 2048 := by
  by_cases h : rowAddr s.i r ≤ 0xFFF
  · simp [checkRow_in h, h, checkCell_eq_none]
  · simp [checkRow_out (show 0xFFF < rowAddr s.i r by omega), h]

/-- The validation passes iff every row does. -/
theorem checkSprite_eq_none {op : Word} {s : State} {ox oy h : Nat} :
    checkSprite op s ox oy h = none ↔ ∀ r, r < h → checkRow op s ox oy r = none := by
  simp [checkSprite]

/-- After a passed validation every target is a cell. -/
theorem spriteTargets_lt {op : Word} {s : State} {ox oy h : Nat} (hc : checkSprite op s ox oy h = none) :
    ∀ k ∈ spriteTargets s.mem s.i ox oy h, k < 2048 := by
  intro k hk
  obtain ⟨r, hr, c, hc8, hb, rfl⟩ := mem_spriteTargets.1 hk
  exact (checkRow_eq_none.1 (checkSprite_eq_none.1 hc r hr)).2 c hc8 hb

/-- The validation's first violation is a fault of `DRW` (60_exceptions.md R67 codes 4 and 5). -/
theorem checkSprite_code {op : Word} {s : State} {ox oy h : Nat} {f : Fault} (hf : checkSprite op s ox oy h = some f) :
    f.code = 4 ∨ f.code = 5 := by
  obtain ⟨r, -, hr, -⟩ := findSome_range_eq_some.1 hf
  by_cases ha : rowAddr s.i r ≤ 0xFFF
  · rw [checkRow_in ha] at hr
    obtain ⟨c, -, hc, -⟩ := findSome_range_eq_some.1 hr
    obtain ⟨-, -, rfl⟩ := checkCell_eq_some.1 hc
    exact .inr rfl
  · rw [checkRow_out (by omega)] at hr
    cases hr
    exact .inl rfl

end Sys2Proof.Machine
end

