-- ==== Sys2Proof/Laws/Step.lean ====
section
/-! SUPPORT. What each meaning answers, and the inversion lemmas: everything an execute phase, a cycle and a step can do. -/

namespace Sys2Proof.Machine

/-! ### The arms of exec -/

theorem exec_cls (ign : BitVec 8) (s : State) : exec (.cls ign) s = execCls s := rfl
theorem exec_ret (ign : BitVec 8) (s : State) : exec (.ret ign) s = execRet ign s := rfl
theorem exec_jp (nnn : Addr12) (s : State) : exec (.jp nnn) s = execJp nnn s := rfl
theorem exec_ldV (x : Reg) (nn : Byte) (s : State) : exec (.ldV x nn) s = execLdV x nn s := rfl
theorem exec_addV (x : Reg) (nn : Byte) (s : State) : exec (.addV x nn) s = execAddV x nn s := rfl
theorem exec_ldI (nnn : Addr12) (s : State) : exec (.ldI nnn) s = execLdI nnn s := rfl
theorem exec_drw (x y : Reg) (n : BitVec 4) (s : State) : exec (.drw x y n) s = execDrw x y n s := rfl

/-! ### One lemma per meaning -/

/-- The state after a successful RET. -/
def afterRet (s : State) : State :=
  (s.setSp ⟨s.sp.val - 1, by omega⟩).setPc (s.stackAt ⟨s.sp.val - 1, by omega⟩ + 2#16)

/-- The state after a successful DRW. -/
def afterDrw (x y : Reg) (n : BitVec 4) (s : State) : State :=
  let cv := drawTargets s.fb (spriteTargets s.mem s.i (s.reg x).toNat (s.reg y).toNat n.toNat)
  (((s.setCollision cv.hit).setFb cv.fb).raiseDraw).advance

theorem execRet_empty (ign : BitVec 8) {s : State} (h : s.sp.val = 0) :
    execRet ign s = .fault (.stackUnderflow s.pc (encode (.ret ign))) := by
  simp [execRet, pop_empty _ h, raise]

theorem execRet_some (ign : BitVec 8) {s : State} (h : s.sp.val ≠ 0) : execRet ign s = .next (afterRet s) := by
  simp [execRet, pop_some _ h, afterRet]

theorem execDrw_ok {x y : Reg} {n : BitVec 4} {s : State}
    (h : checkSprite (encode (.drw x y n)) s (s.reg x).toNat (s.reg y).toNat n.toNat = none) :
    execDrw x y n s = .next (afterDrw x y n s) := by
  simp [execDrw, h, afterDrw]

theorem execDrw_fault {x y : Reg} {n : BitVec 4} {s : State} {f : Fault}
    (h : checkSprite (encode (.drw x y n)) s (s.reg x).toNat (s.reg y).toNat n.toNat = some f) :
    execDrw x y n s = .fault f := by
  simp [execDrw, h, raise]

/-- DRW completes iff its validation passes, and with the one state that follows. -/
theorem execDrw_next_iff {x y : Reg} {n : BitVec 4} {s t : State} :
    execDrw x y n s = .next t ↔
      checkSprite (encode (.drw x y n)) s (s.reg x).toNat (s.reg y).toNat n.toNat = none ∧ t = afterDrw x y n s := by
  cases hc : checkSprite (encode (.drw x y n)) s (s.reg x).toNat (s.reg y).toNat n.toNat with
  | none => rw [execDrw_ok hc, Host.Outcome.next.injEq]; simp [eq_comm]
  | some f => rw [execDrw_fault hc]; simp

/-! ### Everything an execute phase can do -/

/-- If an execute phase answers a next state, it is one of these seven. -/
theorem exec_next_cases {i : Instr} {s t : State} (h : exec i s = .next t) :
    (∃ ign, i = .cls ign ∧ t = ((s.setFb 0#2048).raiseDraw).advance) ∨
    (∃ ign, s.sp.val ≠ 0 ∧ i = .ret ign ∧ t = afterRet s) ∨
    (∃ nnn, i = .jp nnn ∧ t = s.setPc (zext16 nnn)) ∨
    (∃ x nn, i = .ldV x nn ∧ t = (s.setReg x nn).advance) ∨
    (∃ x nn, i = .addV x nn ∧ t = (s.setReg x (s.reg x + nn)).advance) ∨
    (∃ nnn, i = .ldI nnn ∧ t = (s.setI (zext16 nnn)).advance) ∨
    (∃ x y n, i = .drw x y n ∧ t = afterDrw x y n s ∧
      checkSprite (encode (.drw x y n)) s (s.reg x).toNat (s.reg y).toNat n.toNat = none) := by
  cases i with
  | cls ign => exact .inl ⟨ign, rfl, (Host.Outcome.next.inj h).symm⟩
  | ret ign =>
    by_cases hsp : s.sp.val = 0
    · rw [exec, execRet_empty ign hsp] at h; cases h
    · rw [exec, execRet_some ign hsp] at h
      exact .inr (.inl ⟨ign, hsp, rfl, (Host.Outcome.next.inj h).symm⟩)
  | jp nnn => exact .inr (.inr (.inl ⟨nnn, rfl, (Host.Outcome.next.inj h).symm⟩))
  | ldV x nn => exact .inr (.inr (.inr (.inl ⟨x, nn, rfl, (Host.Outcome.next.inj h).symm⟩)))
  | addV x nn => exact .inr (.inr (.inr (.inr (.inl ⟨x, nn, rfl, (Host.Outcome.next.inj h).symm⟩))))
  | ldI nnn => exact .inr (.inr (.inr (.inr (.inr (.inl ⟨nnn, rfl, (Host.Outcome.next.inj h).symm⟩)))))
  | drw x y n =>
    refine .inr (.inr (.inr (.inr (.inr (.inr ⟨x, y, n, rfl, ?_⟩)))))
    cases hc : checkSprite (encode (.drw x y n)) s (s.reg x).toNat (s.reg y).toNat n.toNat with
    | none => rw [exec, execDrw_ok hc] at h; exact ⟨(Host.Outcome.next.inj h).symm, rfl⟩
    | some f => rw [exec, execDrw_fault hc] at h; cases h

/-- If an execute phase faults, it is RET on an empty stack or DRW on a failed validation. -/
theorem exec_fault_cases {i : Instr} {s : State} {f : Fault} (h : exec i s = .fault f) :
    (∃ ign, i = .ret ign ∧ s.sp.val = 0 ∧ f = .stackUnderflow s.pc (encode (.ret ign))) ∨
    (∃ x y n, i = .drw x y n ∧
      checkSprite (encode (.drw x y n)) s (s.reg x).toNat (s.reg y).toNat n.toNat = some f) := by
  cases i with
  | cls ign => cases h
  | ret ign =>
    by_cases hsp : s.sp.val = 0
    · rw [exec, execRet_empty ign hsp] at h
      exact .inl ⟨ign, rfl, hsp, (Host.Outcome.fault.inj h).symm⟩
    · rw [exec, execRet_some ign hsp] at h; cases h
  | jp nnn => cases h
  | ldV x nn => cases h
  | addV x nn => cases h
  | ldI nnn => cases h
  | drw x y n =>
    refine .inr ⟨x, y, n, rfl, ?_⟩
    cases hc : checkSprite (encode (.drw x y n)) s (s.reg x).toNat (s.reg y).toNat n.toNat with
    | none => rw [exec, execDrw_ok hc] at h; cases h
    | some g => rw [exec, execDrw_fault hc] at h; rw [Host.Outcome.fault.inj h]

/-- No execute phase refuses. -/
theorem exec_not_refused (i : Instr) (s : State) (r : Refusal) : exec i s ≠ .refused r := by
  intro h
  cases i with
  | cls ign => cases h
  | ret ign =>
    by_cases hsp : s.sp.val = 0
    · rw [exec, execRet_empty ign hsp] at h; cases h
    · rw [exec, execRet_some ign hsp] at h; cases h
  | jp nnn => cases h
  | ldV x nn => cases h
  | addV x nn => cases h
  | ldI nnn => cases h
  | drw x y n =>
    cases hc : checkSprite (encode (.drw x y n)) s (s.reg x).toNat (s.reg y).toNat n.toNat with
    | none => rw [exec, execDrw_ok hc] at h; cases h
    | some g => rw [exec, execDrw_fault hc] at h; cases h

/-! ### Everything a cycle and a step can do -/

theorem cycle_fetch_fault {s : State} {f : Fault} (h : fetch s = .error f) : cycle s = .fault f := by
  simp [cycle, h]

theorem cycle_unknown {s : State} {op : Word} (hf : fetch s = .ok op) (hd : decodeWord op = none) :
    cycle s = .fault (.unknownOpcode op s.pc) := by
  simp [cycle, hf, hd]

theorem cycle_decoded {s : State} {op : Word} {i : Instr} (hf : fetch s = .ok op) (hd : decodeWord op = some i) :
    cycle s = finish (exec i s) := by
  simp [cycle, hf, hd]

/-- A step of a fetched and decoded instruction: its execute phase, then the tick. -/
theorem step_decoded {s : State} {op : Word} {i : Instr} (hf : fetch s = .ok op) (hd : decodeWord op = some i) :
    step s = cycleState (finish (exec i s)) := by
  rw [step, cycle_decoded hf hd]

/-- A cycle ends in `Ok` iff all four phases did their work. -/
theorem cycle_next_iff {s : State} {r : CycleOk} :
    cycle s = .next r ↔
      ∃ op i u, fetch s = .ok op ∧ decodeWord op = some i ∧ exec i s = .next u ∧ r = ⟨u.st, tick u⟩ := by
  constructor
  · intro h
    cases hf : fetch s with
    | error f => rw [cycle_fetch_fault hf] at h; cases h
    | ok op =>
      cases hd : decodeWord op with
      | none => rw [cycle_unknown hf hd] at h; cases h
      | some i =>
        rw [cycle_decoded hf hd] at h
        cases he : exec i s with
        | next u => rw [he] at h; exact ⟨op, i, u, rfl, hd, he, (Host.Outcome.next.inj h).symm⟩
        | fault f => rw [he] at h; cases h
        | refused r => rw [he] at h; cases h
  · rintro ⟨op, i, u, hf, hd, he, rfl⟩
    rw [cycle_decoded hf hd, he]; rfl

/-- A cycle faults iff the fetch does, the word is unknown, or the execute phase does. -/
theorem cycle_fault_iff {s : State} {f : Fault} :
    cycle s = .fault f ↔
      fetch s = .error f ∨
      (∃ op, fetch s = .ok op ∧ decodeWord op = none ∧ f = .unknownOpcode op s.pc) ∨
      (∃ op i, fetch s = .ok op ∧ decodeWord op = some i ∧ exec i s = .fault f) := by
  constructor
  · intro h
    cases hf : fetch s with
    | error g => rw [cycle_fetch_fault hf] at h; exact .inl (by rw [Host.Outcome.fault.inj h])
    | ok op =>
      cases hd : decodeWord op with
      | none =>
        rw [cycle_unknown hf hd] at h
        exact .inr (.inl ⟨op, rfl, hd, (Host.Outcome.fault.inj h).symm⟩)
      | some i =>
        rw [cycle_decoded hf hd] at h
        cases he : exec i s with
        | next u => rw [he] at h; cases h
        | fault g => rw [he] at h; exact .inr (.inr ⟨op, i, rfl, hd, by rw [he, Host.Outcome.fault.inj h]⟩)
        | refused r => rw [he] at h; cases h
  · rintro (hf | ⟨op, hf, hd, rfl⟩ | ⟨op, i, hf, hd, he⟩)
    · exact cycle_fetch_fault hf
    · exact cycle_unknown hf hd
    · rw [cycle_decoded hf hd, he]; rfl

/-- No cycle refuses. -/
theorem cycle_not_refused (s : State) (r : Refusal) : cycle s ≠ .refused r := by
  intro h
  cases hf : fetch s with
  | error g => rw [cycle_fetch_fault hf] at h; cases h
  | ok op =>
    cases hd : decodeWord op with
    | none => rw [cycle_unknown hf hd] at h; cases h
    | some i =>
      rw [cycle_decoded hf hd] at h
      cases he : exec i s with
      | next u => rw [he] at h; cases h
      | fault g => rw [he] at h; cases h
      | refused q => exact exec_not_refused i s q he

/-- A step answers a next state iff fetch, decode and execute do; the next state is the execute phase's, ticked. -/
theorem step_next_iff {s t : State} :
    step s = .next t ↔
      ∃ op i u, fetch s = .ok op ∧ decodeWord op = some i ∧ exec i s = .next u ∧ t = tick u := by
  constructor
  · intro h
    cases hc : cycle s with
    | next r =>
      obtain ⟨op, i, u, hf, hd, he, rfl⟩ := cycle_next_iff.1 hc
      rw [step, hc] at h
      exact ⟨op, i, u, hf, hd, he, (Host.Outcome.next.inj h).symm⟩
    | fault f => rw [step, hc] at h; cases h
    | refused r => rw [step, hc] at h; cases h
  · rintro ⟨op, i, u, hf, hd, he, rfl⟩
    rw [step, cycle_next_iff.2 ⟨op, i, u, hf, hd, he, rfl⟩]; rfl

theorem step_fault_iff {s : State} {f : Fault} : step s = .fault f ↔ cycle s = .fault f := by
  rw [step]
  cases cycle s <;> simp [cycleState, raise]

/-! ### Placing an instruction where the machine fetches -/

/-- The word placed at a fetchable `PC` is the word fetched. -/
theorem fetch_withFetchWord {s : State} (h : s.pc.toNat ≤ 0xFFE) (nbits w : Nat) :
    fetch (s.withFetchWord nbits w) = .ok (BitVec.ofNat 16 (w % 2 ^ nbits)) := by
  have h' : s.pc.toNat + 1 < 4096 := by omega
  have hpc : (s.withFetchWord nbits w).pc = s.pc := by simp [State.withFetchWord, storeWord, h']
  rw [fetch_in (by rw [hpc]; exact h), hpc]
  simp [State.withFetchWord, storeWord, h', Memory.read_write]

/-- Placing an instruction keeps memory's canonical form. -/
theorem withFetchWord_wf {s : State} (hs : s.Wf) (nbits w : Nat) : (s.withFetchWord nbits w).Wf := by
  simp only [State.withFetchWord, storeWord]
  split
  · exact memWrite_wf _ _ (memWrite_wf _ _ hs)
  · exact hs

end Sys2Proof.Machine
end

