-- ==== Sys2Proof/Laws/Run.lean ====
section
/-! SUPPORT. Runs: what one more step of the host's `Core.run` does on this machine. -/

namespace Sys2Proof.Machine

@[simp] theorem runFrom_zero (s : State) : runFrom 0 s = .next s := rfl

theorem runFrom_succ_next {s u : State} (h : step s = .next u) (n : Nat) : runFrom (n + 1) s = runFrom n u := by
  have h' : core.step s = .next u := h
  refine (Host.Core.run.eq_2 core s n).trans ?_
  rw [h']; rfl

theorem runFrom_succ_fault {s : State} {f : Fault} (h : step s = .fault f) (n : Nat) : runFrom (n + 1) s = .fault f := by
  have h' : core.step s = .fault f := h
  refine (Host.Core.run.eq_2 core s n).trans ?_
  rw [h']; rfl

theorem step_not_refused (s : State) (r : Refusal) : step s ≠ .refused r := by
  rw [step]
  intro h
  cases hc : cycle s with
  | next q => rw [hc] at h; cases h
  | fault f => rw [hc] at h; cases h
  | refused q => exact cycle_not_refused s q hc

/-- A run of `n + 1` steps that ends in a state is a first step and a run of `n`. -/
theorem runFrom_succ_iff {n : Nat} {s t : State} :
    runFrom (n + 1) s = .next t ↔ ∃ u, step s = .next u ∧ runFrom n u = .next t := by
  cases h : step s with
  | next u => rw [runFrom_succ_next h]; simp
  | fault f => rw [runFrom_succ_fault h]; simp
  | refused r => exact absurd h (step_not_refused s r)

/-- The last step of a run. -/
theorem runFrom_succ_last {n : Nat} {s t : State} :
    runFrom (n + 1) s = .next t ↔ ∃ u, runFrom n s = .next u ∧ step u = .next t := by
  induction n generalizing s with
  | zero => rw [runFrom_succ_iff]; simp
  | succ n ih =>
    rw [runFrom_succ_iff]
    constructor
    · rintro ⟨u, hu, hr⟩
      obtain ⟨w, hw, ht⟩ := ih.1 hr
      exact ⟨w, runFrom_succ_iff.2 ⟨u, hu, hw⟩, ht⟩
    · rintro ⟨w, hw, ht⟩
      obtain ⟨u, hu, hr⟩ := runFrom_succ_iff.1 hw
      exact ⟨u, hu, ih.2 ⟨w, hr, ht⟩⟩

/-- The instruction a step runs. -/
theorem current_eq_some {s : State} {op : Word} {i : Instr} (hf : fetch s = .ok op) (hd : decodeWord op = some i) :
    current s = some i := by
  simp [current, hf, hd]

theorem current_eq_some_iff {s : State} {i : Instr} :
    current s = some i ↔ ∃ op, fetch s = .ok op ∧ decodeWord op = some i := by
  constructor
  · intro h
    cases hf : fetch s with
    | error f => rw [current, hf] at h; cases h
    | ok op => rw [current, hf] at h; exact ⟨op, rfl, h⟩
  · rintro ⟨op, hf, hd⟩; exact current_eq_some hf hd

end Sys2Proof.Machine
end

