-- ==== Sys2Proof/Tests/Slice0.lean ====
section
/-! SUPPORT. The model's own tests: the ill-formed terms WellFormed refuses, words written out from the encoding tables, one
step vectors of 95_test_vectors.md (expected values from that file), and a witness for every statement with hypotheses. -/

namespace Sys2Proof.Tests

set_option Elab.async false

open Sys2Proof.Machine

/-! ### Helpers -/

/-- The next state of an outcome, if any. -/
def next? : Result → Option State
  | .next t => some t
  | .fault _ => none
  | .refused _ => none

/-- The fault of an outcome, if any. -/
def fault? : Result → Option Fault
  | .next _ => none
  | .fault f => some f
  | .refused _ => none

/-- The reset state with an instruction word at its `PC`, 0x200. -/
def withOp (op : Nat) : State := State.reset.withFetchWord 16 op

/-- A byte of memory set. -/
def poke (a : Fin 4096) (b : Byte) (s : State) : State := memWrite a b s

/-- The framebuffer whose set cells are the listed ones. -/
def fbOf (cells : List Nat) : Framebuffer := cells.foldl toggleCell 0#2048

/-- The reset state with a DRW word at 0x200, `I = 0x300` and the sprite rows there. -/
def drawState (op : Nat) (row0 row1 : Byte) : State :=
  poke 0x301 row1 (poke 0x300 row0 { withOp op with i := 0x300#16 })

theorem exists_next {r : Result} {p : State → Bool} (h : (next? r).any p = true) : ∃ t, r = .next t ∧ p t = true := by
  cases r with
  | next t => exact ⟨t, rfl, h⟩
  | fault f => cases h
  | refused q => cases h

theorem exists_fault {r : Result} {p : Fault → Bool} (h : (fault? r).any p = true) : ∃ f, r = .fault f ∧ p f = true := by
  cases r with
  | next t => cases h
  | fault f => exact ⟨f, rfl, h⟩
  | refused q => cases h

/-! ### WellFormed refuses an ill-formed term of each check (30_encoding.md R47, 20_memory.md R34) -/

theorem test_wf_refuses_each_range :
    (AsmLine.jp 0x1000).wf = false ∧ (AsmLine.ldV 16 0).wf = false ∧ (AsmLine.ldV 0 256).wf = false ∧
    (AsmLine.addV 16 0).wf = false ∧ (AsmLine.addV 0 256).wf = false ∧ (AsmLine.ldI 0x1000).wf = false ∧
    (AsmLine.drw 16 0 0).wf = false ∧ (AsmLine.drw 0 16 0).wf = false ∧ (AsmLine.drw 0 0 16).wf = false ∧
    (AsmLine.db 256).wf = false := by decide

theorem test_wf_accepts_the_bounds :
    (AsmLine.jp 0xFFF).wf = true ∧ (AsmLine.ldV 15 255).wf = true ∧ (AsmLine.drw 15 15 15).wf = true ∧
    (AsmLine.db 255).wf = true := by decide

theorem test_imageWf : imageWf (List.replicate 3585 0x00#8) = false ∧ imageWf (List.replicate 3584 0x00#8) = true := by
  decide +kernel

theorem test_memory_wf_refuses :
    Memory.wf [(0x300, 1#8), (0x200, 1#8)] = false ∧ Memory.wf [(0x200, 1#8), (0x200, 2#8)] = false ∧
    Memory.wf [(0x200, 0#8)] = false ∧ Memory.wf [(0x1000, 1#8)] = false := by decide +kernel

/-! ### Decoding: words written out bit by bit from 30_encoding.md R40; values from 95_test_vectors.md section 2.1 -/

theorem test_decode_cls : decodeWord 0b0000_1010_1011_0000#16 = some (.cls 0xAB#8) := by decide
theorem test_decode_ret : decodeWord 0b0000_1010_0101_1110#16 = some (.ret 0xA5#8) := by decide
theorem test_decode_jp : decodeWord 0b0001_0011_0000_0001#16 = some (.jp 0x301#12) := by decide
theorem test_decode_ldV : decodeWord 0b0110_1010_0000_0101#16 = some (.ldV 10 0x05#8) := by decide
theorem test_decode_addV : decodeWord 0b0111_0011_0000_0101#16 = some (.addV 3 0x05#8) := by decide
theorem test_decode_ldI : decodeWord 0b1010_0010_1111_0000#16 = some (.ldI 0x2F0#12) := by decide
theorem test_decode_drw : decodeWord 0b1101_0001_0010_0101#16 = some (.drw 1 2 5#4) := by decide
/-- UK1 to UK3: unknown words are rejected by name; 0x0000 is CLS (C2). -/
theorem test_decode_unknown :
    decodeBytes [0xFF#8, 0xFF#8] = .unknownOpcode 0xFFFF#16 ∧ decodeBytes [0x00#8, 0xE1#8] = .unknownOpcode 0x00E1#16 ∧
    decodeBytes [0x22#8] = .truncated ∧ decodeBytes [0x00#8, 0x00#8, 7#8] = .instr (.cls 0x00#8) [7#8] := by decide
theorem test_decodeTableWord : decodeTableWord 16 0xD125 = some (.drw 1 2 5#4) := by decide
/-- Program P2's listing assembles to its bytes (95_test_vectors.md). -/
theorem test_assemble_P2 :
    assemble [.ldI 0x20C, .ldV 0 2, .ldV 1 1, .drw 0 1 2, .drw 0 1 2, .jp 0x20A, .db 0xFF, .db 0x81] =
      some [0xA2#8, 0x0C#8, 0x60#8, 0x02#8, 0x61#8, 0x01#8, 0xD0#8, 0x12#8, 0xD0#8, 0x12#8, 0x12#8, 0x0A#8, 0xFF#8, 0x81#8] := by
  decide

/-! ### One-step vectors of 95_test_vectors.md -/

/-- DP17, S6: 0x0AB0 clears the screen and raises the draw flag; `V[15]` is kept. -/
theorem test_cls :
    (next? (step { withOp 0x0AB0 with fb := fbOf [0, 77, 2047], v := State.reset.v.set 15 1#8 })).map
      (fun t => (t.fb == 0#2048, t.draw, t.reg 15, t.pc)) = some (true, true, 1#8, 0x202#16) := by decide +kernel

/-- CT6: a full stack is an ordinary case and the popped entry is kept. -/
theorem test_ret_full_stack :
    (next? (step { withOp 0x00EE with sp := 16, stack := (State.reset.stack.set 15 0x0ABC#16).set 14 0x0111#16 })).map
      (fun t => (t.sp, t.pc, t.stackAt 15)) = some (15, 0x0ABE#16, 0x0ABC#16) := by decide +kernel

/-- CT5 and CT9: on an empty stack the fault carries the word as fetched. -/
theorem test_ret_empty : fault? (step (withOp 0x0A5E)) = some (.stackUnderflow 0x200#16 0x0A5E#16) := by decide +kernel

/-- CT13: a jump, and the tick with its `sound_pre`. -/
theorem test_jp_and_tick :
    (match cycle { withOp 0x1200 with dt := 5#8, st := 1#8 } with
     | .next r => some (r.soundPre, r.after.pc, r.after.dt, r.after.st)
     | .fault _ => none
     | .refused _ => none) = some (1#8, 0x200#16, 4#8, 0#8) := by decide +kernel

/-- RG2: VF is an ordinary destination. -/
theorem test_ldV_vf : (next? (step (withOp 0x6F07))).map (fun t => (t.reg 15, t.pc)) = some (7#8, 0x202#16) := by decide +kernel

/-- RG6 and RG5b: the sum wraps and `V[15]` keeps its value. -/
theorem test_addV_wraps :
    (next? (step { withOp 0x73FF with v := (State.reset.v.set 3 0xFF#8).set 15 1#8 })).map
      (fun t => (t.reg 3, t.reg 15)) = some (0xFE#8, 1#8) := by decide +kernel

/-- RG10: bits 15..12 of `I` become 0. -/
theorem test_ldI_clears_top : (next? (step { withOp 0xAABC with i := 0xF123#16 })).map (·.i) = some 0x0ABC#16 := by decide +kernel

/-- DP16: two rows, a partial collision. -/
theorem test_drw_collision :
    (next? (step { drawState 0xD012 0xA5#8 0x3C#8 with
      v := (State.reset.v.set 0 4#8).set 1 2#8, fb := fbOf [132, 133, 200] })).map
      (fun t => (t.fb == fbOf [133, 134, 137, 139, 198, 199, 201], t.reg 15, t.draw, t.i)) =
      some (true, 1#8, true, 0x300#16) := by decide +kernel

/-- DP6: the old `V[15]` is the coordinate; DP8b: no wrap at 64 or 256. -/
theorem test_drw_reads_vf_and_spills :
    (next? (step { drawState 0xDF11 0x80#8 0#8 with v := State.reset.v.set 15 5#8 })).map
      (fun t => (t.fb == fbOf [5], t.reg 15)) = some (true, 0#8) ∧
    (next? (step { drawState 0xD011 0xFF#8 0#8 with v := State.reset.v.set 0 0xFF#8 })).map
      (fun t => t.fb == fbOf [255, 256, 257, 258, 259, 260, 261, 262]) = some true := by decide +kernel

/-- DP10: a violation in row 1 leaves row 0 undrawn; DP13 and DP13b: the first violation in scan order is reported; DP15b. -/
theorem test_drw_faults :
    fault? (step { drawState 0xD012 0xFF#8 0x80#8 with v := State.reset.v.set 1 31#8 }) =
      some (.framebufferOutOfBounds 2048 0x200#16 0xD012#16) ∧
    fault? (step (poke 0xFFF 0x80#8 { withOp 0xD012 with i := 0xFFF#16, v := State.reset.v.set 1 32#8 })) =
      some (.framebufferOutOfBounds 2048 0x200#16 0xD012#16) ∧
    fault? (step { withOp 0xD012 with i := 0xFFF#16, v := State.reset.v.set 1 32#8 }) =
      some (.memoryOutOfBounds (.sprite 0xD012#16) 0x1000 0x200#16) ∧
    fault? (step (poke 0x30E 1#8 { withOp 0xD01F with i := 0x300#16, v := (State.reset.v.set 0 255#8).set 1 255#8 })) =
      some (.framebufferOutOfBounds 17478 0x200#16 0xD01F#16) := by decide +kernel

/-- DRW from reset on the uninterpreted font: it completes for every font (43_display.md R63, no index is out of range). -/
theorem test_drw_of_font_completes : (next? (step (withOp 0xD01F))).isSome = true := by decide +kernel

/-- FE2 to FE5: the last fetchable word, the two kinds of fetch fault, an odd `PC`. -/
theorem test_fetch_edges :
    (next? (step (poke 0xFFE 0x60#8 (poke 0xFFF 5#8 { State.reset with pc := 0xFFE#16 })))).map (fun t => (t.reg 0, t.pc)) =
      some (5#8, 0x1000#16) ∧
    fault? (step { State.reset with pc := 0xFFF#16 }) = some (.memoryOutOfBounds .fetch 0x1000 0xFFF#16) ∧
    fault? (step { State.reset with pc := 0xFFFF#16 }) = some (.memoryOutOfBounds .fetch 0xFFFF 0xFFFF#16) ∧
    (next? (step (poke 0x201 0x6B#8 (poke 0x202 0x7C#8 { State.reset with pc := 0x201#16 })))).map
      (fun t => (t.reg 11, t.pc)) = some (0x7C#8, 0x203#16) := by decide +kernel

/-- FE6, with the customary bytes of G1 listed where the font stands: fetching from the font area is legal. -/
theorem test_fetch_from_font_area :
    fault? (step { State.reset with pc := 0#16, mem := [(0, 0xF0#8), (1, 0x90#8)] }) =
      some (.unknownOpcode 0xF090#16 0#16) := by decide +kernel

/-- S8, TM3: an unknown word faults with its value and address. -/
theorem test_unknown_faults :
    fault? (step { withOp 0xFFFF with dt := 2#8 }) = some (.unknownOpcode 0xFFFF#16 0x200#16) := by decide +kernel

/-- PU2 and PU3: push at 15 and at 16. -/
theorem test_push :
    (next? (push 0#16 { State.reset with sp := 15, pc := 0xABC#16 })).map (fun t => (t.stackAt 15, t.sp, t.pc)) =
      some (0xABC#16, 16, 0xABC#16) ∧
    fault? (push 0x2204#16 { State.reset with sp := 16 }) = some (.stackOverflow 0x200#16 0x2204#16) := by decide +kernel

/-- LD2 and LD5: a load, and the tail kept by a shorter one. -/
theorem test_load :
    (next? (loadProgram [0x12#8, 0x00#8] (poke 0x202 0x5A#8 State.reset))).map
      (fun t => (t.mem.read 0x200, t.mem.read 0x201, t.mem.read 0x202, t.pc)) =
      some (0x12#8, 0x00#8, 0x5A#8, 0x200#16) := by decide +kernel

/-- RS2, RS3: `Reset` keeps the draw flag and the keys and erases the program; `PowerOn` gives the reset state. -/
theorem test_reset :
    (resetOp { withOp 0x1234 with draw := true, keys := State.reset.keys.set 4 true, pc := 0x456#16 }) =
      { State.reset with draw := true, keys := State.reset.keys.set 4 true } ∧
    powerOn { withOp 0x1234 with draw := true, keys := State.reset.keys.set 4 true } = State.reset := by decide +kernel

/-- HO1 to HO4. -/
theorem test_host_operations :
    (setKeyOp 4 true State.reset).key 4 = true ∧ (clearDrawFlag { State.reset with draw := true }).draw = false ∧
    (readFramebuffer { State.reset with fb := fbOf [65] }).pixel 1 1 = true ∧
    readSoundTimer { State.reset with st := 3#8 } = 3#8 := by decide +kernel

/-- The named sizes fit one another (00_scope.md R5). -/
theorem test_sizes :
    Config.maxProgLen = Config.memLen - Config.progBase ∧ Config.fbLen = Config.fbW * Config.fbH ∧
    Config.fontBase + Config.fontLen = 80 ∧ Config.stackDepth = 16 ∧ Config.instrLen = 2 ∧ Config.spriteW = 8 ∧
    State.reset.pc.toNat = Config.progBase := by decide

/-! ### Witnesses: a concrete state and operands for the hypotheses of each statement -/

theorem witness_DecodeFollowsTheNibbles :
    (0x0000#16).toNat / 4096 = 0 ∧ (0x0FF0#16).toNat % 16 = 0 ∧ (0x0FFE#16).toNat % 16 = 0xE ∧
    ((0x0001#16).toNat / 4096 = 0 ∧ (0x0001#16).toNat % 16 ≠ 0 ∧ (0x0001#16).toNat % 16 ≠ 0xE) ∧
    (0x1FFF#16).toNat / 4096 = 0x1 ∧ (0x6FFF#16).toNat / 4096 = 0x6 ∧ (0x7000#16).toNat / 4096 = 0x7 ∧
    (0xAFFF#16).toNat / 4096 = 0xA ∧ (0xDFFF#16).toNat / 4096 = 0xD ∧
    (0xFFFF#16).toNat / 4096 ∈ [0x2, 0x3, 0x4, 0x5, 0x8, 0x9, 0xB, 0xC, 0xE, 0xF] := by decide

theorem witness_EncodeOfDecodeIsIdentity : decodeWord 0x0A5E#16 = some (.ret 0xA5#8) := by decide

theorem witness_DecoderAgreesWithOpcodeMap :
    ∃ row ∈ opcodeMap, row.selects 0x0A5E#16 = true ∧ decodeWord 0x0A5E#16 = some (.ret 0xA5#8) :=
  ⟨⟨"RET", 0xF00F#16, 0x000E#16⟩, by simp [opcodeMap], by decide, by decide⟩

theorem witness_AssembledLinesDecode :
    (AsmLine.drw 15 15 16).wf = false ∧ (AsmLine.drw 15 15 15).wf = true ∧ (AsmLine.db 255).wf = true := by decide

/-- At the boundary addresses: the last byte, the first beyond, the last and the first refused two-byte read. -/
theorem witness_CheckedReadsAnswerOrRaise :
    (memRead1 .fetch 0xFFF State.reset).toOption = some 0#8 ∧ (memRead1 .fetch 0x1000 State.reset).toOption = none ∧
    (memRead2 .fetch 0xFFE State.reset).toOption = some 0#16 ∧ (memRead2 .fetch 0xFFF State.reset).toOption = none := by
  decide +kernel

theorem witness_FetchOutsideMemoryFaults :
    0x0FFE < (0xFFF#16 : Word).toNat ∧ 0x0FFE < (0x1000#16 : Word).toNat ∧
    fault? (step { State.reset with pc := 0x1000#16 }) = some (.memoryOutOfBounds .fetch 0x1000 0x1000#16) := by
  decide +kernel

theorem witness_CanonicalMemoriesWithEqualBytesAreEqual :
    Memory.wf [(0x200, 5#8)] = true ∧ (Memory.write [(0x201, 7#8), (0x200, 5#8)].reverse 0x201 0#8).wf = true ∧
    Memory.write [(0x200, 5#8), (0x201, 7#8)] 0x201 0#8 = [(0x200, 5#8)] := by decide +kernel

theorem witness_StepRunsTheDecodedInstruction :
    (withOp 0x7305).pc.toNat ≤ 0x0FFE ∧
    decodeWord (BitVec.ofNat 16 (((withOp 0x7305).mem.read (withOp 0x7305).pc.toNat).toNat * 256 +
      ((withOp 0x7305).mem.read ((withOp 0x7305).pc.toNat + 1)).toNat)) = some (.addV 3 5#8) := by decide +kernel

/-- One state for each clause: a fetch outside memory, an unknown word, a faulting and a completing execute phase. -/
theorem witness_CycleRunsFourPhases :
    0x0FFE < ({ State.reset with pc := 0xFFF#16 } : State).pc.toNat ∧
    ((withOp 0xFFFF).pc.toNat ≤ 0x0FFE ∧ decodeWord 0xFFFF#16 = none ∧ (fetch (withOp 0xFFFF)).toOption = some 0xFFFF#16) ∧
    (decodeWord 0x00EE#16 = some (.ret 0x0E#8) ∧ (fetch (withOp 0x00EE)).toOption = some 0x00EE#16 ∧
      (fault? (exec (.ret 0x0E#8) (withOp 0x00EE))).isSome = true) ∧
    (decodeWord 0x1200#16 = some (.jp 0x200#12) ∧ (fetch (withOp 0x1200)).toOption = some 0x1200#16 ∧
      (next? (exec (.jp 0x200#12) (withOp 0x1200))).isSome = true) := by decide +kernel

theorem witness_UnknownWordsFaultAndOnlyThey :
    (withOp 0x00E1).pc.toNat ≤ 0x0FFE ∧ (fetch (withOp 0x00E1)).toOption = some 0x00E1#16 := by decide +kernel

theorem witness_FaultingOperationChangesNothing :
    (hostStep .cycle (withOp 0x2204)).2 = .fault (.unknownOpcode 0x2204#16 0x200#16) ∧
    (hostStep (.loadProgram (List.replicate 3585 0#8)) State.reset).2 = .fault (.loadError 3585) := by decide +kernel

theorem witness_JpReplacesPc :
    0x1FFF#16 &&& 0xF000#16 = 0x1000#16 ∧ ∃ t, exec (.jp 0xFFF#12) State.reset = .next t ∧ (t.pc == 0xFFF#16) = true :=
  ⟨by decide, exists_next (by decide +kernel)⟩

/-- The pointer at 1 and at 16, at 0, and a non-canonical word. -/
theorem witness_RetPopsAndStepsPastTheCall :
    0 < ({ State.reset with sp := 1 } : State).sp.val ∧ 0 < ({ State.reset with sp := 16 } : State).sp.val ∧
    State.reset.sp.val = 0 ∧ 0x0A5E#16 &&& 0xF00F#16 = 0x000E#16 := by decide

theorem witness_RetOnEmptyStackIsReportedAndChangesNothing :
    (withOp 0x0A5E).pc.toNat ≤ 0x0FFE ∧ (fetch (withOp 0x0A5E)).toOption = some 0x0A5E#16 ∧
    0x0A5E#16 &&& 0xF00F#16 = 0x000E#16 ∧ (withOp 0x0A5E).sp = 0 := by decide +kernel

theorem witness_StackOverflowIsOnlyPushs :
    ({ State.reset with sp := 16 } : State).sp.val = 16 ∧ ({ State.reset with sp := 15 } : State).sp.val ≠ 16 := by decide

theorem witness_PushThenRetResumesAfterTheCaller :
    ∃ t, push 0x2204#16 { State.reset with sp := 15 } = .next t ∧ decide (t.sp = 16) = true :=
  exists_next (by decide +kernel)

theorem witness_LdVLoadsTheImmediate : 0x6FFF#16 &&& 0xF000#16 = 0x6000#16 := by decide

theorem witness_AddVAddsModulo256WithoutCarry :
    0x7FFF#16 &&& 0xF000#16 = 0x7000#16 ∧ (3 : Reg) ≠ 15 ∧
    ∃ t, exec (.addV 3 0xFF#8) { State.reset with v := State.reset.v.set 3 0xFF#8 } = .next t ∧ (t.reg 3 == 0xFE#8) = true :=
  ⟨by decide, by decide, exists_next (by decide +kernel)⟩

theorem witness_LdILoadsTheAddress : 0xAFFF#16 &&& 0xF000#16 = 0xA000#16 := by decide

theorem witness_ClsClearsEveryCell : 0x0FF0#16 &&& 0xF00F#16 = 0x0000#16 := by decide

/-- A two-row sprite at column 56, row 30, whose last bit lands in the last cell, 2047; `V[0]` and `V[1]` hold the coordinates. -/
def lastCellState (fb : Framebuffer) : State :=
  { drawState 0xD012 0xFF#8 0x01#8 with v := (State.reset.v.set 0 0x38#8).set 1 0x1E#8, fb := fb }

/-- The hypotheses of the closed form at that state, and both of its collision clauses: cell 2047 set before, and clear. -/
theorem witness_DrwClosedForm :
    (∀ r, r < (2#4).toNat → (lastCellState 0#2048).i.toNat + r ≤ 0x0FFF ∧
      ∀ c, c < 8 → ((lastCellState 0#2048).mem.read ((lastCellState 0#2048).i.toNat + r)).getLsbD (7 - c) = true →
        (((lastCellState 0#2048).reg 0).toNat + c) + (((lastCellState 0#2048).reg 1).toNat + r) * 64 ≤ 2047) ∧
    (((lastCellState 0#2048).reg 0).toNat + 7) + (((lastCellState 0#2048).reg 1).toNat + 1) * 64 = 2047 ∧
    (next? (exec (.drw 0 1 2#4) (lastCellState 0#2048))).map (fun t => (t.fb.cell 2047, t.reg 15)) = some (true, 0#8) ∧
    (next? (exec (.drw 0 1 2#4) (lastCellState (fbOf [2047])))).map (fun t => (t.fb.cell 2047, t.reg 15)) =
      some (false, 1#8) := by decide +kernel

/-- Both kinds of violation occur, and a draw without one. -/
theorem witness_DrwReportsTheFirstViolation :
    (fault? (exec (.drw 0 1 2#4) { drawState 0xD012 0xFF#8 0x80#8 with v := State.reset.v.set 1 31#8 })).isSome = true ∧
    (fault? (exec (.drw 0 1 1#4) { State.reset with i := 0x1000#16 })).isSome = true ∧
    (fault? (exec (.drw 0 1 1#4) (drawState 0xD011 0xFF#8 0#8))).isSome = false := by decide +kernel

theorem witness_DrawingTwiceRestoresTheFramebuffer :
    ∃ t, exec (.drw 0 1 1#4) (drawState 0xD011 0xFF#8 0#8) = .next t ∧
      (t.reg 0 == (drawState 0xD011 0xFF#8 0#8).reg 0 && t.reg 1 == (drawState 0xD011 0xFF#8 0#8).reg 1) = true :=
  exists_next (by decide +kernel)

/-- The last on-screen place of a full-height sprite, its last row in the last byte of memory. -/
theorem witness_OnScreenSpritesDrawWithoutFault :
    1 ≤ (15#4).toNat ∧ (0xFF1#16 : Word).toNat + (15#4).toNat - 1 ≤ 0x0FFF ∧ (0x38#8).toNat + 7 ≤ 63 ∧
    (0x11#8).toNat + (15#4).toNat - 1 ≤ 31 := by decide

theorem witness_SpriteColumnsSpillIntoLaterRows :
    cellIndex 63 31 0 0 ≤ 2047 ∧ 63 + 0 ≤ 63 ∧ cellIndex 60 30 0 4 ≤ 2047 ∧ 64 ≤ 60 + 4 := by decide

theorem witness_InstructionsChangeOnlyTheirTargets :
    (∃ t, exec (.drw 0 1 1#4) (drawState 0xD011 0xFF#8 0#8) = .next t ∧ t.draw = true) ∧
    (∃ t, exec (.ret 0#8) { State.reset with sp := 1 } = .next t ∧ decide (t.sp = 0) = true) :=
  ⟨exists_next (by decide +kernel), exists_next (by decide +kernel)⟩

/-- One instruction for each of the three clauses. -/
theorem witness_PcFollowsTheDiscipline :
    (∃ t, exec (.jp 0x201#12) State.reset = .next t ∧ (t.pc == 0x201#16) = true) ∧
    (∃ t, exec (.ret 0#8) { State.reset with sp := 1, stack := State.reset.stack.set 0 0xFFFF#16 } = .next t ∧
      (t.pc == 1#16) = true) ∧
    (∃ t, exec (.ldV 0 1#8) State.reset = .next t ∧ (t.pc == 0x202#16) = true) :=
  ⟨exists_next (by decide +kernel), exists_next (by decide +kernel), exists_next (by decide +kernel)⟩

theorem witness_DrawFlagIsSetByDrawingAndClearedByTheHost :
    (∃ t, exec (.cls 0#8) State.reset = .next t ∧ t.draw = true) ∧
    (∃ t, exec (.drw 0 1 0#4) State.reset = .next t ∧ t.draw = true) ∧
    (∃ t, exec (.jp 0#12) State.reset = .next t ∧ (!t.draw) = true) ∧
    ({ State.reset with draw := true } : State).draw = true ∧
    (hostStep .clearDrawFlag { State.reset with draw := true }).1.draw = false ∧
    HostOp.reset ≠ .cycle ∧ HostOp.reset ≠ .clearDrawFlag ∧ HostOp.reset ≠ .powerOn :=
  ⟨exists_next (by decide +kernel), exists_next (by decide +kernel), exists_next (by decide +kernel), rfl, rfl,
    by decide, by decide, by decide⟩

theorem witness_OnlyDrwWritesVfAsAFlag :
    (∃ t, exec (.drw 0 1 0#4) State.reset = .next t ∧ (t.reg 15 == 0#8) = true) ∧
    (∃ t, exec (.ldV 15 7#8) State.reset = .next t ∧ (t.reg 15 != State.reset.reg 15) = true) :=
  ⟨exists_next (by decide +kernel), exists_next (by decide +kernel)⟩

theorem witness_TimersMoveOnlyByTheTick :
    (∃ t, step { withOp 0x1200 with dt := 1#8, st := 0#8 } = .next t ∧ (t.dt == 0#8 && t.st == 0#8) = true) ∧
    HostOp.clearDrawFlag ≠ .cycle ∧ HostOp.clearDrawFlag ≠ .reset ∧ HostOp.clearDrawFlag ≠ .powerOn :=
  ⟨exists_next (by decide +kernel), by decide, by decide, by decide⟩

theorem witness_TimersCountSuccessfulCycles :
    ∃ t, runFrom 2 { withOp 0x1200 with dt := 3#8 } = .next t ∧ (t.dt == 1#8) = true :=
  exists_next (by decide +kernel)

/-- The tone's cycle, and one that is not. -/
theorem witness_SoundPreSignalsTheTone :
    (hostStep .cycle { withOp 0x1200 with st := 1#8 }).2 = .ok 1#8 ∧
    (hostStep .cycle { withOp 0x1200 with st := 2#8 }).2 = .ok 2#8 := by decide +kernel

theorem witness_LoadProgramWritesTheImage :
    (List.replicate 3584 0x5A#8).length ≤ 3584 ∧ 3583 < (List.replicate 3584 0x5A#8).length ∧ State.reset.mem.wf = true := by
  decide +kernel

theorem witness_LoadedWordIsFetchedNext :
    0 + 1 < [0x12#8, 0x00#8].length ∧ State.reset.pc.toNat = 0x200 + 0 ∧
    ∃ t, loadProgram [0x12#8, 0x00#8] State.reset = .next t ∧ (t.mem.read 0x200 == 0x12#8) = true :=
  ⟨by decide, by decide, exists_next (by decide +kernel)⟩

theorem witness_OversizedLoadIsRejected : 3584 < (List.replicate 3585 0#8).length := by decide +kernel

theorem witness_ResetLoopsLeaveResetMemory : (withOp 0x1234).mem.wf = true ∧ (withOp 0x1234).mem ≠ [] := by decide +kernel

theorem witness_ProgramsObserveNoDeviceState :
    eraseDevices { withOp 0x1200 with dt := 3#8, draw := true } = eraseDevices { withOp 0x1200 with st := 9#8 } := by
  decide +kernel

theorem witness_ClearDrawFlagClearsOnlyTheFlag :
    (withOp 0x00E0).draw = false ∧ (hostStep .cycle (withOp 0x00E0)).1.draw = true := by decide +kernel

theorem witness_FramebufferViewIsReadOnly :
    HostOp.clearDrawFlag ≠ .cycle ∧ HostOp.clearDrawFlag ≠ .reset ∧ HostOp.clearDrawFlag ≠ .powerOn := by decide

/-- The facts hold of the reset state with a jump-to-self placed, and a step from it succeeds. -/
theorem witness_StepKeepsReachableFacts :
    ReachableFacts (withOp 0x1200) ∧ ∃ t, step (withOp 0x1200) = .next t ∧ (t.pc == 0x200#16) = true := by
  refine ⟨⟨rfl, fun j => by simp [withOp, State.withFetchWord, storeWord, State.stackAt, memWrite, State.reset], rfl, rfl, by decide,
    fun a ha => ?_, by decide +kernel, by decide +kernel⟩, exists_next (by decide +kernel)⟩
  have hm : (withOp 0x1200).mem = Memory.write (Memory.write [] 0x200 (highByte 0x1200#16)) 0x201 (lowByte 0x1200#16) := rfl
  have ha' : a < 0x200 := ha
  rw [hm, Memory.read_write, Memory.read_write, if_neg (by omega), if_neg (by omega)]
  rfl

/-- Reachable states for both clauses: one whose cycle succeeds, one that executes a RET. -/
theorem witness_ReachableStatesKeepTheirFacts :
    (Reachable (powerOn State.reset) ∧ (hostStep .cycle (powerOn State.reset)).2 = .ok 0#8) ∧
    (Reachable (hostStep (.loadProgram [0x00#8, 0xEE#8]) (powerOn State.reset)).1 ∧
      current (hostStep (.loadProgram [0x00#8, 0xEE#8]) (powerOn State.reset)).1 = some (.ret 0x0E#8)) :=
  ⟨⟨.powerOn _, by decide +kernel⟩, .op _ (.powerOn _), by decide +kernel⟩

/-- Both sides of the equivalence hold of a jump-to-self with the timers at 0. -/
theorem witness_FixedPointsAreTheSettledStates :
    (withOp 0x1200).dt = 0#8 ∧ (withOp 0x1200).st = 0#8 ∧ SelfJump (withOp 0x1200) ∧
    next? (step (withOp 0x1200)) = some (withOp 0x1200) :=
  ⟨rfl, rfl, ⟨by decide +kernel, by decide +kernel⟩, by decide +kernel⟩

theorem witness_SelfJumpOnlyCountsTimersDown : SelfJump { withOp 0x1200 with dt := 3#8 } :=
  ⟨by decide +kernel, by decide +kernel⟩

/-- A run of one cycle, an LD, with neither JP nor RET in it. -/
theorem witness_StraightLineRunsAreBounded :
    (∃ t, runFrom 1 (withOp 0x6A05) = .next t ∧ (t.pc == 0x202#16) = true) ∧
    ∀ (k : Nat) (u : State), k < 1 → runFrom k (withOp 0x6A05) = .next u →
      (∀ nnn, current u ≠ some (.jp nnn)) ∧ ∀ ign, current u ≠ some (.ret ign) := by
  refine ⟨exists_next (by decide +kernel), fun k u hk hu => ?_⟩
  obtain rfl : k = 0 := by omega
  cases hu
  have hc : current (withOp 0x6A05) = some (.ldV 10 5#8) := by decide +kernel
  simp [hc]

/-- The first and the last run of CLS cycles, and the state the fetch fault names. -/
theorem witness_EmptyMachineClearsUntilItLeavesMemory :
    0 ≤ 1792 ∧ 1792 ≤ 1792 ∧ fault? (step { State.reset with pc := 0x1000#16 }) = some (.memoryOutOfBounds .fetch 0x1000 0x1000#16) :=
  ⟨by decide, by decide, by decide +kernel⟩

/-- The last fetchable `PC`, in never-loaded memory. -/
theorem witness_ZeroWordsExecuteAsCls :
    ({ State.reset with pc := 0xFFE#16 } : State).pc.toNat ≤ 0x0FFE ∧
    ({ State.reset with pc := 0xFFE#16 } : State).mem.read 0xFFE = 0x00#8 ∧
    ({ State.reset with pc := 0xFFE#16 } : State).mem.read 0xFFF = 0x00#8 := by decide +kernel

end Sys2Proof.Tests
end

section
/-! The statements of the state family (10_state.md): the canonical memory form, what each instruction leaves unchanged, the
draw flag, the timers, and the values after `PowerOn`. -/

namespace Sys2Proof.Machine

/-! ### Canonical memories are determined by their reads -/

/-- Where memory differs from its reset contents, the byte read is listed. -/
theorem Memory.mem_of_read_ne_initial {m : Memory} {a : Nat} (h : m.read a ≠ Memory.initial a) : (a, m.read a) ∈ m := by
  induction m with
  | nil => exact absurd rfl h
  | cons head m ih =>
    obtain ⟨k, c⟩ := head
    simp only [Memory.read] at h ⊢
    split at h
    · next hk => simp [hk]
    · next hk => rw [if_neg hk]; exact List.mem_cons_of_mem _ (ih h)

/-- In a rising memory the one entry of an address is what the address reads as. -/
theorem Memory.read_of_mem {m : Memory} (hp : m.Pairwise fun x y => x.1 < y.1) {cell : Host.Cell} (h : cell ∈ m) :
    m.read cell.1 = cell.2 := by
  induction m with
  | nil => cases h
  | cons head m ih =>
    obtain ⟨hlt, hp⟩ := List.pairwise_cons.1 hp
    rcases List.mem_cons.1 h with rfl | h
    · exact if_pos rfl
    · exact (if_neg (hlt cell h).ne).trans (ih hp h)

/-- The entries of a canonical memory, told from its reads alone. -/
theorem Memory.mem_iff_read {m : Memory} (hm : m.wf = true) (cell : Host.Cell) :
    cell ∈ m ↔ m.read cell.1 = cell.2 ∧ cell.2 ≠ Memory.initial cell.1 := by
  obtain ⟨hp, hcell⟩ := m.wf_iff.1 hm
  constructor
  · exact fun h => ⟨Memory.read_of_mem hp h, (hcell cell h).2⟩
  · rintro ⟨hr, hne⟩
    have := Memory.mem_of_read_ne_initial (m := m) (a := cell.1) (by rwa [hr])
    rwa [hr] at this

/-- Settles O10: canonical memories with equal reads have the same entries, and both lists rise. -/
theorem canonicalMemoriesWithEqualBytesAreEqual : Obligations.CanonicalMemoriesWithEqualBytesAreEqual := by
  intro m₁ m₂ h₁ h₂ hread
  refine List.Pairwise.eq_of_mem_iff (m₁.wf_iff.1 h₁).1 (m₂.wf_iff.1 h₂).1 fun cell => ?_
  rw [Memory.mem_iff_read h₁, Memory.mem_iff_read h₂, hread]

/-! ### The state after each instruction -/

/-- The state an instruction leaves when its execute phase completes (`exec_next_eq_afterExec`). -/
def afterExec : Instr → State → State
  | .cls _, s => ((s.setFb 0#2048).raiseDraw).advance
  | .ret _, s => afterRet s
  | .jp nnn, s => s.setPc (zext16 nnn)
  | .ldV x nn, s => (s.setReg x nn).advance
  | .addV x nn, s => (s.setReg x (s.reg x + nn)).advance
  | .ldI nnn, s => (s.setI (zext16 nnn)).advance
  | .drw x y n, s => afterDrw x y n s

theorem exec_next_eq_afterExec {i : Instr} {s t : State} (h : exec i s = .next t) : t = afterExec i s := by
  rcases exec_next_cases h with ⟨_, rfl, ht⟩ | ⟨_, _, rfl, ht⟩ | ⟨_, rfl, ht⟩ | ⟨_, _, rfl, ht⟩ | ⟨_, _, rfl, ht⟩ |
    ⟨_, rfl, ht⟩ | ⟨_, _, _, rfl, ht, _⟩ <;> exact ht

section Frame

variable (i : Instr) (s : State)

@[simp] theorem afterExec_mem : (afterExec i s).mem = s.mem := by cases i <;> rfl
@[simp] theorem afterExec_stack : (afterExec i s).stack = s.stack := by cases i <;> rfl
@[simp] theorem afterExec_dt : (afterExec i s).dt = s.dt := by cases i <;> rfl
@[simp] theorem afterExec_st : (afterExec i s).st = s.st := by cases i <;> rfl
@[simp] theorem afterExec_keys : (afterExec i s).keys = s.keys := by cases i <;> rfl

variable {i}

theorem afterExec_fb (hcls : ∀ ign, i ≠ .cls ign) (hdrw : ∀ x y n, i ≠ .drw x y n) : (afterExec i s).fb = s.fb := by
  cases i with
  | cls ign => exact absurd rfl (hcls ign)
  | drw x y n => exact absurd rfl (hdrw x y n)
  | _ => rfl

theorem afterExec_draw (hcls : ∀ ign, i ≠ .cls ign) (hdrw : ∀ x y n, i ≠ .drw x y n) :
    (afterExec i s).draw = s.draw := by
  cases i with
  | cls ign => exact absurd rfl (hcls ign)
  | drw x y n => exact absurd rfl (hdrw x y n)
  | _ => rfl

theorem afterExec_i (hldI : ∀ nnn, i ≠ .ldI nnn) : (afterExec i s).i = s.i := by
  cases i with
  | ldI nnn => exact absurd rfl (hldI nnn)
  | _ => rfl

theorem afterExec_sp (hret : ∀ ign, i ≠ .ret ign) : (afterExec i s).sp = s.sp := by
  cases i with
  | ret ign => exact absurd rfl (hret ign)
  | _ => rfl

theorem afterDrw_reg (x y : Reg) (n : BitVec 4) (r : Reg) :
    (afterDrw x y n s).reg r =
      if r = vf then
        collisionByte (drawTargets s.fb (spriteTargets s.mem s.i (s.reg x).toNat (s.reg y).toNat n.toNat)).hit
      else s.reg r :=
  s.reg_setCollision r _

theorem afterExec_reg {r : Reg} (hldV : ∀ nn, i ≠ .ldV r nn) (haddV : ∀ nn, i ≠ .addV r nn)
    (hdrw : r = vf → ∀ x y n, i ≠ .drw x y n) : (afterExec i s).reg r = s.reg r := by
  cases i with
  | ldV x nn => exact s.reg_setReg_other (fun h => hldV nn (by rw [h])) nn
  | addV x nn => exact s.reg_setReg_other (fun h => haddV nn (by rw [h])) _
  | drw x y n => rw [afterExec, afterDrw_reg, if_neg fun h => hdrw h x y n rfl]
  | _ => rfl

end Frame

/-- No instruction clears the draw flag. -/
theorem afterExec_draw_of_set (i : Instr) {s : State} (h : s.draw = true) : (afterExec i s).draw = true := by
  cases i with
  | cls => rfl
  | drw => rfl
  | _ => exact h

/-- Settles O31: each clause is the frame lemma of its state element. -/
theorem instructionsChangeOnlyTheirTargets : Obligations.InstructionsChangeOnlyTheirTargets := by
  intro i s t h
  obtain rfl := exec_next_eq_afterExec h
  refine ⟨fun a => ?_, afterExec_mem i s, fun j => ?_, afterExec_dt i s, afterExec_st i s, fun k => ?_,
    fun hcls hdrw => ⟨afterExec_fb s hcls hdrw, afterExec_draw s hcls hdrw⟩, afterExec_i s, afterExec_sp s,
    fun r => afterExec_reg s⟩
  · rw [afterExec_mem]
  · simp only [State.stackAt, afterExec_stack]
  · simp only [State.key, afterExec_keys]

/-! ### The host's operations -/

/-- The state after a cycle: a completed execute phase and the tick, or the state before it. -/
theorem hostStep_cycle_state (s : State) :
    (∃ i u, exec i s = .next u ∧ (hostStep .cycle s).1 = tick u) ∨ (hostStep .cycle s).1 = s := by
  simp only [hostStep]
  cases hc : cycle s with
  | next r =>
    obtain ⟨_, i, u, _, _, he, rfl⟩ := cycle_next_iff.1 hc
    exact .inl ⟨i, u, he, rfl⟩
  | fault f => exact .inr rfl
  | refused r => exact .inr rfl

/-- A load, accepted or rejected, changes nothing but memory. -/
theorem hostStep_loadProgram_frame (bytes : List Byte) (s : State) :
    (hostStep (.loadProgram bytes) s).1 = { s with mem := (hostStep (.loadProgram bytes) s).1.mem } := by
  simp only [hostStep, loadProgram]
  split
  · exact writeBytes_frame _ _ _ s
  · rfl

theorem hostStep_draw {o : HostOp} (s : State) (hcycle : o ≠ .cycle) (hclear : o ≠ .clearDrawFlag)
    (hpower : o ≠ .powerOn) : (hostStep o s).1.draw = s.draw := by
  cases o with
  | cycle => exact absurd rfl hcycle
  | clearDrawFlag => exact absurd rfl hclear
  | powerOn => exact absurd rfl hpower
  | loadProgram bytes => rw [hostStep_loadProgram_frame]
  | _ => rfl

theorem hostStep_timers {o : HostOp} (s : State) (hcycle : o ≠ .cycle) (hreset : o ≠ .reset)
    (hpower : o ≠ .powerOn) : (hostStep o s).1.dt = s.dt ∧ (hostStep o s).1.st = s.st := by
  cases o with
  | cycle => exact absurd rfl hcycle
  | reset => exact absurd rfl hreset
  | powerOn => exact absurd rfl hpower
  | loadProgram bytes => rw [hostStep_loadProgram_frame]; exact ⟨rfl, rfl⟩
  | _ => exact ⟨rfl, rfl⟩

/-! ### The draw flag -/

/-- A cycle never clears the draw flag. -/
theorem hostStep_cycle_draw_of_set {s : State} (h : s.draw = true) : (hostStep .cycle s).1.draw = true := by
  rcases hostStep_cycle_state s with ⟨i, u, he, hs⟩ | hs
  · rw [hs, tick_draw, exec_next_eq_afterExec he, afterExec_draw_of_set i h]
  · rwa [hs]

/-- Settles O33: by the flag of `afterExec` for the instructions and of `hostStep` for the host's operations. -/
theorem drawFlagIsSetByDrawingAndClearedByTheHost : Obligations.DrawFlagIsSetByDrawingAndClearedByTheHost := by
  refine ⟨fun ign s t h => ?_, fun x y n s t h => ?_, fun i s t h hcls hdrw => ?_, fun s => rfl, fun s => rfl,
    fun s => rfl, fun o s hset hclear => ?_, fun o s => hostStep_draw s⟩
  · rw [exec_next_eq_afterExec h]; rfl
  · rw [exec_next_eq_afterExec h]; rfl
  · rw [exec_next_eq_afterExec h, afterExec_draw s hcls hdrw]
  · by_contra hne
    obtain ⟨hclr, hpower⟩ := not_or.1 hne
    have hkept : (hostStep o s).1.draw = true := by
      by_cases hcycle : o = .cycle
      · rw [hcycle]; exact hostStep_cycle_draw_of_set hset
      · rw [hostStep_draw s hcycle hclr hpower, hset]
    rw [hkept] at hclear
    cases hclear

/-! ### VF -/

theorem collisionByte_eq_zero_or_one (hit : Bool) : collisionByte hit = 0x00#8 ∨ collisionByte hit = 0x01#8 := by
  cases hit
  · exact .inl rfl
  · exact .inr rfl

/-- Settles O34: after DRW `V[15]` is a collision byte; otherwise the register frame leaves LD and ADD with `X = 15`. -/
theorem onlyDrwWritesVfAsAFlag : Obligations.OnlyDrwWritesVfAsAFlag := by
  refine ⟨fun x y n s t h => ?_, fun i s t h hdrw hne => ?_, rfl⟩
  · rw [exec_next_eq_afterExec h, afterExec, afterDrw_reg, if_pos (show (15 : Reg) = vf from rfl)]
    exact collisionByte_eq_zero_or_one _
  · by_contra hno
    refine hne ?_
    rw [exec_next_eq_afterExec h]
    exact afterExec_reg s (fun nn hi => hno ⟨nn, .inl hi⟩) (fun nn hi => hno ⟨nn, .inr hi⟩) fun _ => hdrw

/-! ### The timers -/

/-- The validation of a sprite reads memory, `I` and `PC` only. -/
theorem checkSprite_congr {s t : State} (hmem : s.mem = t.mem) (hi : s.i = t.i) (hpc : s.pc = t.pc) (op : Word)
    (ox oy h : Nat) : checkSprite op s ox oy h = checkSprite op t ox oy h := by
  have hrow : checkRow op s ox oy = checkRow op t ox oy := by
    funext r
    simp only [checkRow, memRead1, hmem, hi, hpc]
  simp only [checkSprite, hrow]

/-- No instruction reads or writes a timer. -/
theorem exec_setTimers (i : Instr) (s : State) (d e : Byte) :
    exec i (s.setTimers d e) = mapNext (fun t => t.setTimers d e) (exec i s) := by
  cases i with
  | ret ign =>
    rw [exec_ret, exec_ret]
    by_cases hsp : s.sp.val = 0
    · rw [execRet_empty ign hsp, execRet_empty ign (s := s.setTimers d e) hsp]; rfl
    · rw [execRet_some ign hsp, execRet_some ign (s := s.setTimers d e) hsp]; rfl
  | drw x y n =>
    have hcheck := checkSprite_congr (s := s.setTimers d e) (t := s) rfl rfl rfl
      (encode (.drw x y n)) (s.reg x).toNat (s.reg y).toNat n.toNat
    rw [exec_drw, exec_drw]
    cases hc : checkSprite (encode (.drw x y n)) s (s.reg x).toNat (s.reg y).toNat n.toNat with
    | none => rw [execDrw_ok hc, execDrw_ok (s := s.setTimers d e) (hcheck.trans hc)]; rfl
    | some f => rw [execDrw_fault hc, execDrw_fault (s := s.setTimers d e) (hcheck.trans hc)]; rfl
  | _ => rfl

/-- A successful step takes 1 from each timer above 0. -/
theorem step_next_timers {s t : State} (h : step s = .next t) :
    t.dt.toNat = s.dt.toNat - 1 ∧ t.st.toNat = s.st.toNat - 1 := by
  obtain ⟨_, i, u, _, _, he, rfl⟩ := step_next_iff.1 h
  rw [exec_next_eq_afterExec he, tick_dt, tick_st, countdown_toNat, countdown_toNat, afterExec_dt, afterExec_st]
  exact ⟨rfl, rfl⟩

/-- Settles O35: the tick after the timers' frame, and the timers' independence of `exec` and of the other operations. -/
theorem timersMoveOnlyByTheTick : Obligations.TimersMoveOnlyByTheTick :=
  ⟨fun _ _ => step_next_timers, exec_setTimers, fun _ => rfl, fun _ s => hostStep_timers s⟩

/-! ### The state after `PowerOn` -/

theorem Memory.initial_font {a : Nat} (h : a < 80) : Memory.initial a = Config.font[a] := dif_pos h

theorem Memory.initial_zero {a : Nat} (h : 80 ≤ a) : Memory.initial a = 0x00#8 := dif_neg (by omega)

theorem State.reset_reg (x : Reg) : State.reset.reg x = 0x00#8 := Vector.getElem_replicate x.isLt

theorem State.reset_stackAt (j : Fin 16) : State.reset.stackAt j = 0x0000#16 := Vector.getElem_replicate j.isLt

theorem State.reset_key (k : Fin 16) : State.reset.key k = false := Vector.getElem_replicate k.isLt

/-- Settles O41: `PowerOn` overwrites every element, and each element of `State.reset` has the value of R21. -/
theorem powerOnGivesTheResetState : Obligations.PowerOnGivesTheResetState :=
  ⟨fun _ => rfl, State.reset_reg, rfl, rfl, rfl, State.reset_stackAt, rfl, rfl, fun _ => Memory.initial_font,
    fun _ => Memory.initial_zero, fun k _ => Framebuffer.cell_zero k, State.reset_key, rfl⟩

end Sys2Proof.Machine
end

section
/-! The statements of the memory family (20_memory.md): the checked reads, what a load leaves, and the fetch after it. -/

namespace Sys2Proof.Machine

/-! ### A load -/

theorem loadProgram_fits {bytes : List Byte} (h : bytes.length ≤ 3584) (s : State) :
    loadProgram bytes s = .next (writeBytes 0x200 bytes (by omega) s) := dif_pos h

theorem loadProgram_oversized {bytes : List Byte} (h : 3584 < bytes.length) (s : State) :
    loadProgram bytes s = .fault (.loadError bytes.length) := dif_neg (by omega)

/-- A load that succeeds wrote an image that fits. -/
theorem loadProgram_next_iff {bytes : List Byte} {s t : State} :
    loadProgram bytes s = .next t ↔ ∃ h : bytes.length ≤ 3584, writeBytes 0x200 bytes (by omega) s = t := by
  by_cases h : bytes.length ≤ 3584
  · simp [loadProgram_fits h, h]
  · simp [loadProgram_oversized (Nat.lt_of_not_le h), h]

/-- Inside the written range, the bytes read in their order. -/
theorem writeBytes_read_image {a : Nat} {bytes : List Byte} (h : a + bytes.length ≤ 4096) (s : State) {k : Nat}
    (hk : k < bytes.length) : (writeBytes a bytes h s).mem.read (a + k) = bytes[k] := by
  rw [writeBytes_read, dif_pos (by omega)]
  simp

theorem writeBytes_read_outside {a : Nat} {bytes : List Byte} (h : a + bytes.length ≤ 4096) (s : State) {x : Nat}
    (hx : x < a ∨ a + bytes.length ≤ x) : (writeBytes a bytes h s).mem.read x = s.mem.read x := by
  rw [writeBytes_read, dif_neg (by omega)]

theorem writeBytes_pc {a : Nat} {bytes : List Byte} (h : a + bytes.length ≤ 4096) (s : State) :
    (writeBytes a bytes h s).pc = s.pc := by rw [writeBytes_frame]

/-- Settles O38: an image that fits is written whole, and each clause is a law of that run of byte writes. -/
theorem loadProgramWritesTheImage : Obligations.LoadProgramWritesTheImage := by
  intro bytes s hlen
  have hload := loadProgram_fits hlen s
  refine ⟨_, hload, ?_, fun k hk => writeBytes_read_image _ s hk, fun a ha => writeBytes_read_outside _ s ha,
    writeBytes_frame _ _ _ s, fun hwf => writeBytes_wf _ _ _ hwf⟩
  rw [hostStep, hload, afterLoad]

/-! ### The checked reads and the fetch -/

/-- The big-endian word as the arithmetic of 20_memory.md R28. -/
theorem wordOfBytes_eq_ofNat (hi lo : Byte) : wordOfBytes hi lo = BitVec.ofNat 16 (hi.toNat * 256 + lo.toNat) := by
  rw [← wordOfBytes_toNat, BitVec.ofNat_toNat, BitVec.setWidth_eq]

/-- Settles O8: the laws of the two checked reads, below and above the last address a read of their size may have. -/
theorem checkedReadsAnswerOrRaise : Obligations.CheckedReadsAnswerOrRaise := by
  intro access addr s
  refine ⟨fun h => memRead1_in access h s, fun h => ⟨_, _, memRead1_out access h s⟩, fun h => ?_,
    fun h => ⟨_, _, memRead2_out access (Nat.lt_of_succ_lt_succ h) s⟩⟩
  rw [memRead2_in access (Nat.le_of_succ_le_succ h), wordOfBytes_eq_ofNat]

/-- Settles O39: the load keeps `PC`, which is fetchable because the image fits, and both bytes lie in the image. -/
theorem loadedWordIsFetchedNext : Obligations.LoadedWordIsFetchedNext := by
  intro bytes s t k hk hload hpc
  obtain ⟨hlen, rfl⟩ := loadProgram_next_iff.1 hload
  have hpc' : (writeBytes 0x200 bytes (by omega) s).pc.toNat = 0x200 + k := by rw [writeBytes_pc, hpc]
  rw [fetch_in (by omega), hpc', Nat.add_assoc, writeBytes_read_image _ s (by omega), writeBytes_read_image _ s hk,
    wordOfBytes_eq_ofNat]

end Sys2Proof.Machine
end

section
/-! The statements of the encoding family (30_encoding.md): the fields, the decoder on every word, the two round trips, the
opcode map, the assembler, and the words that fault as unknown. -/

namespace Sys2Proof

/-! ### Fields -/

/-- `X` as the statements write it. -/
theorem fieldX_eq_ofNat (op : Word) : fieldX op = Fin.ofNat 16 (op.toNat / 256) := Fin.ext (fieldX_val op)

/-- `Y` as the statements write it. -/
theorem fieldY_eq_ofNat (op : Word) : fieldY op = Fin.ofNat 16 (op.toNat / 16) := Fin.ext (fieldY_val op)

theorem fieldNNN_toNat_eq_append (op : Word) :
    (fieldNNN op).toNat = (fieldX op).val * 256 + (fieldY op).val * 16 + (fieldN op).toNat := by
  rw [fieldNNN_toNat, fieldX_val, fieldY_val, fieldN_toNat]; omega

theorem fieldNN_toNat_eq_append (op : Word) : (fieldNN op).toNat = (fieldY op).val * 16 + (fieldN op).toNat := by
  rw [fieldNN_toNat, fieldY_val, fieldN_toNat]; omega

/-- Settles O1: the slices are the fields' definitions, and the overlaps are arithmetic on the word's value. -/
theorem fieldsAreSlicesOfTheWord : Obligations.FieldsAreSlicesOfTheWord := fun op =>
  ⟨rfl, rfl, rfl, rfl, rfl, rfl, fieldNNN_toNat_eq_append op, fieldNN_toNat_eq_append op⟩

/-! ### The decoder, one equation per case of 30_encoding.md R42 -/

section Families

variable {op : Word}

theorem decodeWord_family0_cls (hF : (fieldF op).toNat = 0) (hN : (fieldN op).toNat = 0) :
    decodeWord op = some (.cls (fieldIgn op)) := by simp [decodeWord, hF, hN]

theorem decodeWord_family0_ret (hF : (fieldF op).toNat = 0) (hN : (fieldN op).toNat = 14) :
    decodeWord op = some (.ret (fieldIgn op)) := by simp [decodeWord, hF, hN]

theorem decodeWord_family1 (hF : (fieldF op).toNat = 1) : decodeWord op = some (.jp (fieldNNN op)) := by
  simp [decodeWord, hF]

theorem decodeWord_family6 (hF : (fieldF op).toNat = 6) :
    decodeWord op = some (.ldV (fieldX op) (fieldNN op)) := by simp [decodeWord, hF]

theorem decodeWord_family7 (hF : (fieldF op).toNat = 7) :
    decodeWord op = some (.addV (fieldX op) (fieldNN op)) := by simp [decodeWord, hF]

theorem decodeWord_familyA (hF : (fieldF op).toNat = 10) : decodeWord op = some (.ldI (fieldNNN op)) := by
  simp [decodeWord, hF]

theorem decodeWord_familyD (hF : (fieldF op).toNat = 13) :
    decodeWord op = some (.drw (fieldX op) (fieldY op) (fieldN op)) := by simp [decodeWord, hF]

/-- The unknown words of 30_encoding.md R45: the families without a row, and the low nibbles of family 0 without one. -/
theorem decodeWord_eq_none_iff :
    decodeWord op = none ↔
      op.toNat / 4096 ∈ [0x2, 0x3, 0x4, 0x5, 0x8, 0x9, 0xB, 0xC, 0xE, 0xF] ∨
        (op.toNat / 4096 = 0 ∧ op.toNat % 16 ∉ [0x0, 0xE]) := by
  rw [← fieldF_toNat, ← fieldN_toNat]
  simp only [List.mem_cons, List.not_mem_nil, or_false, not_or]
  constructor
  · intro hnone
    by_contra hknown
    have hlt := (fieldF op).isLt
    have hfamily : ((fieldF op).toNat = 0 ∧ (fieldN op).toNat = 0) ∨
        ((fieldF op).toNat = 0 ∧ (fieldN op).toNat = 14) ∨ (fieldF op).toNat = 1 ∨ (fieldF op).toNat = 6 ∨
        (fieldF op).toNat = 7 ∨ (fieldF op).toNat = 10 ∨ (fieldF op).toNat = 13 := by omega
    rcases hfamily with ⟨hF, hN⟩ | ⟨hF, hN⟩ | hF | hF | hF | hF | hF
    · nomatch (decodeWord_family0_cls hF hN).symm.trans hnone
    · nomatch (decodeWord_family0_ret hF hN).symm.trans hnone
    · nomatch (decodeWord_family1 hF).symm.trans hnone
    · nomatch (decodeWord_family6 hF).symm.trans hnone
    · nomatch (decodeWord_family7 hF).symm.trans hnone
    · nomatch (decodeWord_familyA hF).symm.trans hnone
    · nomatch (decodeWord_familyD hF).symm.trans hnone
  · intro hunknown
    cases hd : decodeWord op with
    | none => rfl
    | some i =>
      rcases decodeWord_cases hd with ⟨hF, hN, -⟩ | ⟨hF, hN, -⟩ | ⟨hF, -⟩ | ⟨hF, -⟩ | ⟨hF, -⟩ | ⟨hF, -⟩ | ⟨hF, -⟩ <;>
        omega

end Families

/-- Settles O2: the decoder's equation for each family, with the fields as slices of the word. -/
theorem decodeFollowsTheNibbles : Obligations.DecodeFollowsTheNibbles := by
  intro op
  rw [← fieldX_eq_ofNat, ← fieldY_eq_ofNat, ← fieldF_toNat, ← fieldN_toNat]
  refine ⟨decodeWord_family0_cls, decodeWord_family0_ret, fun hF h0 hE => ?_, decodeWord_family1, decodeWord_family6,
    decodeWord_family7, decodeWord_familyA, decodeWord_familyD,
    fun hF => decodeWord_eq_none_iff.2 (.inl (by rwa [← fieldF_toNat]))⟩
  refine decodeWord_eq_none_iff.2 (.inr ?_)
  rw [← fieldF_toNat, ← fieldN_toNat]
  exact ⟨hF, by simp [h0, hE]⟩

/-- Settles O3: each word is decoded by evaluation. -/
theorem tableWordsDecode : Obligations.TableWordsDecode := by
  unfold Obligations.TableWordsDecode
  decide

/-! ### The round trips -/

/-- A word that decodes is put together again from its family and its fields. -/
theorem encode_of_decodeWord {op : Word} {i : Instr} (h : decodeWord op = some i) : encode i = op := by
  apply BitVec.eq_of_toNat_eq
  have hlt := op.isLt
  rcases decodeWord_cases h with ⟨hF, hN, rfl⟩ | ⟨hF, hN, rfl⟩ | ⟨hF, rfl⟩ | ⟨hF, rfl⟩ | ⟨hF, rfl⟩ | ⟨hF, rfl⟩ |
    ⟨hF, rfl⟩ <;> rw [fieldF_toNat] at hF
  · rw [fieldN_toNat] at hN
    rw [encode_cls_toNat, fieldIgn_toNat]; omega
  · rw [fieldN_toNat] at hN
    rw [encode_ret_toNat, fieldIgn_toNat]; omega
  · rw [encode_jp_toNat, fieldNNN_toNat]; omega
  · rw [encode_ldV_toNat, fieldX_val, fieldNN_toNat]; omega
  · rw [encode_addV_toNat, fieldX_val, fieldNN_toNat]; omega
  · rw [encode_ldI_toNat, fieldNNN_toNat]; omega
  · rw [encode_drw_toNat, fieldX_val, fieldY_val, fieldN_toNat]; omega

/-- Settles O5: a decoded word is rebuilt from its fields. -/
theorem encodeOfDecodeIsIdentity : Obligations.EncodeOfDecodeIsIdentity := fun _ _ => encode_of_decodeWord

/-- Every instruction decodes from its own word: the family is its own, and each operand is its field. -/
@[simp] theorem decodeWord_encode (i : Instr) : decodeWord (encode i) = some i := by
  cases i with
  | cls ign =>
    have hw := encode_cls_toNat ign
    have hign : fieldIgn (encode (.cls ign)) = ign := BitVec.eq_of_toNat_eq (by rw [fieldIgn_toNat]; omega)
    rw [decodeWord_family0_cls (by rw [fieldF_toNat]; omega) (by rw [fieldN_toNat]; omega), hign]
  | ret ign =>
    have hw := encode_ret_toNat ign
    have hign : fieldIgn (encode (.ret ign)) = ign := BitVec.eq_of_toNat_eq (by rw [fieldIgn_toNat]; omega)
    rw [decodeWord_family0_ret (by rw [fieldF_toNat]; omega) (by rw [fieldN_toNat]; omega), hign]
  | jp nnn =>
    have hw := encode_jp_toNat nnn
    have hnnn : fieldNNN (encode (.jp nnn)) = nnn := BitVec.eq_of_toNat_eq (by rw [fieldNNN_toNat]; omega)
    rw [decodeWord_family1 (by rw [fieldF_toNat]; omega), hnnn]
  | ldV x nn =>
    have hw := encode_ldV_toNat x nn
    have hx : fieldX (encode (.ldV x nn)) = x := Fin.ext (by rw [fieldX_val]; omega)
    have hnn : fieldNN (encode (.ldV x nn)) = nn := BitVec.eq_of_toNat_eq (by rw [fieldNN_toNat]; omega)
    rw [decodeWord_family6 (by rw [fieldF_toNat]; omega), hx, hnn]
  | addV x nn =>
    have hw := encode_addV_toNat x nn
    have hx : fieldX (encode (.addV x nn)) = x := Fin.ext (by rw [fieldX_val]; omega)
    have hnn : fieldNN (encode (.addV x nn)) = nn := BitVec.eq_of_toNat_eq (by rw [fieldNN_toNat]; omega)
    rw [decodeWord_family7 (by rw [fieldF_toNat]; omega), hx, hnn]
  | ldI nnn =>
    have hw := encode_ldI_toNat nnn
    have hnnn : fieldNNN (encode (.ldI nnn)) = nnn := BitVec.eq_of_toNat_eq (by rw [fieldNNN_toNat]; omega)
    rw [decodeWord_familyA (by rw [fieldF_toNat]; omega), hnnn]
  | drw x y n =>
    have hw := encode_drw_toNat x y n
    have hx : fieldX (encode (.drw x y n)) = x := Fin.ext (by rw [fieldX_val]; omega)
    have hy : fieldY (encode (.drw x y n)) = y := Fin.ext (by rw [fieldY_val]; omega)
    have hn : fieldN (encode (.drw x y n)) = n := BitVec.eq_of_toNat_eq (by rw [fieldN_toNat]; omega)
    rw [decodeWord_familyD (by rw [fieldF_toNat]; omega), hx, hy, hn]

theorem decodeBytes_encodeBytes (i : Instr) (rest : List Byte) :
    decodeBytes (encodeBytes i ++ rest) = .instr i rest := by
  simp [encodeBytes, decodeBytes]

/-- Settles O4: the word's round trip, and the same for the two bytes, whose word it is. -/
theorem decodeOfEncodeIsIdentity : Obligations.DecodeOfEncodeIsIdentity := fun i rest =>
  ⟨decodeWord_encode i, decodeBytes_encodeBytes i rest⟩

/-! ### The opcode map -/

theorem opcodeMap_mnemonic_inj :
    ∀ row₁ ∈ opcodeMap, ∀ row₂ ∈ opcodeMap, row₁.mnemonic = row₂.mnemonic → row₁ = row₂ := by decide

/-- A word that selects a row decodes to an instruction of that row. -/
theorem decodeWord_of_selects {op : Word} {row : OpcodeRow} (hrow : row ∈ opcodeMap) (h : row.selects op = true) :
    ∃ i, decodeWord op = some i ∧ i.mnemonic = row.mnemonic := by
  have hsel : op &&& row.mask = row.pattern := beq_iff_eq.1 h
  simp only [opcodeMap, List.mem_cons, List.not_mem_nil, or_false] at hrow
  rcases hrow with rfl | rfl | rfl | rfl | rfl | rfl | rfl
  · obtain ⟨hF, hN⟩ := (and_F00F_eq_iff op 0x0#4 0x0#4).1 hsel
    exact ⟨_, decodeWord_family0_cls (congrArg BitVec.toNat hF) (congrArg BitVec.toNat hN), rfl⟩
  · obtain ⟨hF, hN⟩ := (and_F00F_eq_iff op 0x0#4 0xE#4).1 hsel
    exact ⟨_, decodeWord_family0_ret (congrArg BitVec.toNat hF) (congrArg BitVec.toNat hN), rfl⟩
  · exact ⟨_, decodeWord_family1 (congrArg BitVec.toNat ((and_F000_eq_iff op 0x1#4).1 hsel)), rfl⟩
  · exact ⟨_, decodeWord_family6 (congrArg BitVec.toNat ((and_F000_eq_iff op 0x6#4).1 hsel)), rfl⟩
  · exact ⟨_, decodeWord_family7 (congrArg BitVec.toNat ((and_F000_eq_iff op 0x7#4).1 hsel)), rfl⟩
  · exact ⟨_, decodeWord_familyA (congrArg BitVec.toNat ((and_F000_eq_iff op 0xA#4).1 hsel)), rfl⟩
  · exact ⟨_, decodeWord_familyD (congrArg BitVec.toNat ((and_F000_eq_iff op 0xD#4).1 hsel)), rfl⟩

/-- The word of every instruction selects the row of its mnemonic. -/
theorem encode_selectsRow (i : Instr) : Laws.SelectsRow.Statement i := by
  cases i with
  | cls ign => exact Laws.SelectsRow.cls ign
  | ret ign => exact Laws.SelectsRow.ret ign
  | jp nnn => exact Laws.SelectsRow.jp nnn
  | ldV x nn => exact Laws.SelectsRow.ldV x nn
  | addV x nn => exact Laws.SelectsRow.addV x nn
  | ldI nnn => exact Laws.SelectsRow.ldI nnn
  | drw x y n => exact Laws.SelectsRow.drw x y n

/-- Settles O6: a decoded word is an encoding, which selects its row; two rows that select one word bear the mnemonic of the
one instruction it decodes to. -/
theorem decoderAgreesWithOpcodeMap : Obligations.DecoderAgreesWithOpcodeMap := by
  intro op
  refine ⟨fun row => decodeWord_of_selects, fun i hi => ?_, fun row₁ hrow₁ row₂ hrow₂ h₁ h₂ => ?_⟩
  · obtain ⟨row, hrow, hname, hsel⟩ := encode_selectsRow i
    rw [encode_of_decodeWord hi] at hsel
    exact ⟨row, hrow, hsel, hname⟩
  · obtain ⟨i, hi, hname₁⟩ := decodeWord_of_selects hrow₁ h₁
    obtain ⟨j, hj, hname₂⟩ := decodeWord_of_selects hrow₂ h₂
    obtain rfl : i = j := Option.some.inj (hi.symm.trans hj)
    exact opcodeMap_mnemonic_inj row₁ hrow₁ row₂ hrow₂ (hname₁.symm.trans hname₂)

/-! ### The assembler -/

theorem AsmLine.bytes_eq_none {l : AsmLine} (hwf : l.wf = false) : l.bytes = none := by simp [AsmLine.bytes, hwf]

/-- An instruction line assembles to the bytes of the instruction whose word it is. -/
theorem AsmLine.bytes_of_word {l : AsmLine} {i : Instr} (hwf : l.wf = true) (hword : l.word = some (encode i)) :
    l.bytes = some (encodeBytes i) := by
  cases l with
  | db b => cases hword
  | _ => simp [AsmLine.bytes, hwf, hword, encodeBytes]

/-- The bytes of an instruction line decode to the instruction whose word it is. -/
theorem AsmLine.decode_bytes_of_word {l : AsmLine} {i : Instr} (hwf : l.wf = true) (hword : l.word = some (encode i)) :
    l.bytes.map decodeBytes = some (.instr i []) := by
  rw [AsmLine.bytes_of_word hwf hword, Option.map_some, ← decodeBytes_encodeBytes i [], List.append_nil]

theorem AsmLine.word_jp {nnn : Nat} (hwf : (AsmLine.jp nnn).wf = true) :
    (AsmLine.jp nnn).word = some (encode (.jp (BitVec.ofNat 12 nnn))) := by
  simp only [AsmLine.wf, decide_eq_true_eq] at hwf
  refine congrArg some (BitVec.eq_of_toNat_eq ?_)
  simp only [encode_jp_toNat, BitVec.toNat_ofNat]
  omega

theorem AsmLine.word_ldV {x nn : Nat} (hwf : (AsmLine.ldV x nn).wf = true) :
    (AsmLine.ldV x nn).word = some (encode (.ldV (Fin.ofNat 16 x) (BitVec.ofNat 8 nn))) := by
  simp only [AsmLine.wf, Bool.and_eq_true, decide_eq_true_eq] at hwf
  refine congrArg some (BitVec.eq_of_toNat_eq ?_)
  simp only [encode_ldV_toNat, BitVec.toNat_ofNat, Fin.val_ofNat]
  omega

theorem AsmLine.word_addV {x nn : Nat} (hwf : (AsmLine.addV x nn).wf = true) :
    (AsmLine.addV x nn).word = some (encode (.addV (Fin.ofNat 16 x) (BitVec.ofNat 8 nn))) := by
  simp only [AsmLine.wf, Bool.and_eq_true, decide_eq_true_eq] at hwf
  refine congrArg some (BitVec.eq_of_toNat_eq ?_)
  simp only [encode_addV_toNat, BitVec.toNat_ofNat, Fin.val_ofNat]
  omega

theorem AsmLine.word_ldI {nnn : Nat} (hwf : (AsmLine.ldI nnn).wf = true) :
    (AsmLine.ldI nnn).word = some (encode (.ldI (BitVec.ofNat 12 nnn))) := by
  simp only [AsmLine.wf, decide_eq_true_eq] at hwf
  refine congrArg some (BitVec.eq_of_toNat_eq ?_)
  simp only [encode_ldI_toNat, BitVec.toNat_ofNat]
  omega

theorem AsmLine.word_drw {x y n : Nat} (hwf : (AsmLine.drw x y n).wf = true) :
    (AsmLine.drw x y n).word = some (encode (.drw (Fin.ofNat 16 x) (Fin.ofNat 16 y) (BitVec.ofNat 4 n))) := by
  simp only [AsmLine.wf, Bool.and_eq_true, decide_eq_true_eq] at hwf
  refine congrArg some (BitVec.eq_of_toNat_eq ?_)
  simp only [encode_drw_toNat, BitVec.toNat_ofNat, Fin.val_ofNat]
  omega

/-- Settles O7: a well-formed instruction line's word is the encoding of its instruction, which decodes back. -/
theorem assembledLinesDecode : Obligations.AssembledLinesDecode := by
  refine fun l => ⟨AsmLine.bytes_eq_none, fun hwf => ?_⟩
  cases l with
  | cls => exact ⟨rfl, rfl⟩
  | ret => exact ⟨rfl, rfl⟩
  | jp nnn => exact AsmLine.decode_bytes_of_word hwf (AsmLine.word_jp hwf)
  | ldV x nn => exact AsmLine.decode_bytes_of_word hwf (AsmLine.word_ldV hwf)
  | addV x nn => exact AsmLine.decode_bytes_of_word hwf (AsmLine.word_addV hwf)
  | ldI nnn => exact AsmLine.decode_bytes_of_word hwf (AsmLine.word_ldI hwf)
  | drw x y n => exact AsmLine.decode_bytes_of_word hwf (AsmLine.word_drw hwf)
  | db b => exact if_pos hwf

end Sys2Proof

namespace Sys2Proof.Machine

/-! ### Unknown words -/

/-- No execute phase raises `UnknownOpcode`, whose code is 1. -/
theorem exec_fault_code_ne_one {i : Instr} {s : State} {f : Fault} (h : exec i s = .fault f) : f.code ≠ 1 := by
  rcases exec_fault_cases h with ⟨_, -, -, rfl⟩ | ⟨x, y, n, -, hcheck⟩
  · simp [Fault.code]
  · rcases checkSprite_code hcheck with h4 | h5 <;> omega

/-- A step reports the fetched word as unknown iff it does not decode. -/
theorem step_unknownOpcode_iff {s : State} {op : Word} (hf : fetch s = .ok op) :
    step s = .fault (.unknownOpcode op s.pc) ↔ decodeWord op = none := by
  rw [step_fault_iff]
  refine ⟨fun h => ?_, cycle_unknown hf⟩
  rcases cycle_fault_iff.1 h with hfetch | ⟨w, hw, hd, -⟩ | ⟨_, _, -, -, hexec⟩
  · nomatch hf.symm.trans hfetch
  · obtain rfl : op = w := Except.ok.inj (hf.symm.trans hw)
    exact hd
  · exact absurd rfl (exec_fault_code_ne_one hexec)

/-- Settles O13: the step faults so iff the fetched word does not decode, which R45 tells by its nibbles. -/
theorem unknownWordsFaultAndOnlyThey : Obligations.UnknownWordsFaultAndOnlyThey := by
  rintro s hpc op rfl
  rw [← wordOfBytes_eq_ofNat, step_unknownOpcode_iff (fetch_in hpc), decodeWord_eq_none_iff]

end Sys2Proof.Machine
end

section
/-! The statements of the cycle family (40_cycle.md): the four phases, what a faulting operation leaves, and the program
counter after each instruction. -/

namespace Sys2Proof.Machine

/-! ### The program counter after an execute phase -/

/-- `PC + 2` on the natural numbers, wrapping at the top of its range. -/
theorem State.advance_pc_toNat (s : State) : s.advance.pc.toNat = (s.pc.toNat + 2) % 65536 := rfl

/-- Only JP and RET do not step to the next word. -/
theorem afterExec_pc {i : Instr} (s : State) (hjp : ∀ nnn, i ≠ .jp nnn) (hret : ∀ ign, i ≠ .ret ign) :
    (afterExec i s).pc = s.advance.pc := by
  cases i with
  | jp nnn => exact absurd rfl (hjp nnn)
  | ret ign => exact absurd rfl (hret ign)
  | _ => rfl

/-- A RET that completes popped from a stack that was not empty. -/
theorem sp_pos_of_exec_ret {ign : BitVec 8} {s t : State} (h : exec (.ret ign) s = .next t) : 0 < s.sp.val := by
  refine Nat.pos_of_ne_zero fun hsp => ?_
  rw [exec_ret, execRet_empty ign hsp] at h
  cases h

/-- Settles O32: JP's immediate, RET's popped entry, and `afterExec_pc` for the rest. -/
theorem pcFollowsTheDiscipline : Obligations.PcFollowsTheDiscipline := by
  intro i s t h
  have ht := exec_next_eq_afterExec h
  cases i with
  | jp nnn => rw [ht]; exact zext16_toNat nnn
  | ret ign => rw [ht]; exact ⟨sp_pos_of_exec_ret h, rfl⟩
  | _ => rw [ht, afterExec_pc s (by simp) (by simp)]; exact s.advance_pc_toNat

/-! ### The tick as the statements write it -/

theorem countdown_eq_ofNat (b : Byte) : countdown b = BitVec.ofNat 8 (b.toNat - 1) := by
  rw [← countdown_toNat, BitVec.ofNat_toNat, BitVec.setWidth_eq]

theorem countdown_eq_ite (b : Byte) : countdown b = if 0 < b.toNat then b - 1#8 else b := by
  by_cases hb : b = 0#8
  · rw [hb]; rfl
  · have hpos : 0 < b.toNat := Nat.pos_of_ne_zero fun h0 => hb (BitVec.eq_of_toNat_eq h0)
    rw [if_pos hpos, countdown, if_neg hb]

theorem tick_eq_ofNat (t : State) :
    tick t = { t with dt := BitVec.ofNat 8 (t.dt.toNat - 1), st := BitVec.ofNat 8 (t.st.toNat - 1) } := by
  rw [tick, State.setTimers, countdown_eq_ofNat, countdown_eq_ofNat]

theorem tick_eq_ite (t : State) :
    tick t = { t with
      dt := if 0 < t.dt.toNat then t.dt - 1#8 else t.dt
      st := if 0 < t.st.toNat then t.st - 1#8 else t.st } := by
  rw [tick, State.setTimers, countdown_eq_ite, countdown_eq_ite]

/-! ### The phases of a cycle -/

/-- The fetch, with the word as the statements write it. -/
theorem fetch_eq_ofNat {s : State} (h : s.pc.toNat ≤ 0xFFE) :
    fetch s = .ok (BitVec.ofNat 16 ((s.mem.read s.pc.toNat).toNat * 256 + (s.mem.read (s.pc.toNat + 1)).toNat)) := by
  rw [fetch_in h, wordOfBytes_eq_ofNat]

/-- Settles O11: the fetched word decodes, and each outcome of its execute phase is the step's, ticked if it completed. -/
theorem stepRunsTheDecodedInstruction : Obligations.StepRunsTheDecodedInstruction := by
  intro s i hpc hd
  rw [step_decoded (fetch_eq_ofNat hpc) hd]
  cases exec i s with
  | next t => exact congrArg Host.Outcome.next (tick_eq_ofNat t)
  | fault f => rfl
  | refused r => rfl

/-- The host sees a cycle's fault, and the state before it. -/
theorem hostStep_cycle_of_fault {s : State} {f : Fault} (h : cycle s = .fault f) :
    hostStep .cycle s = (s, .fault f) := by
  rw [hostStep, h]; rfl

/-- The host sees a completed cycle's `sound_pre`, and the state after it. -/
theorem hostStep_cycle_of_next {s : State} {r : CycleOk} (h : cycle s = .next r) :
    hostStep .cycle s = (r.after, .ok r.soundPre) := by
  rw [hostStep, h]; rfl

/-- Settles O12: each clause is the law of its phase, and the host's view follows from the cycle's outcome. -/
theorem cycleRunsFourPhases : Obligations.CycleRunsFourPhases := by
  refine fun s => ⟨fun hpc => ?_, ?_⟩
  · have hc := cycle_fetch_fault (fetch_out hpc)
    exact ⟨_, hc, hostStep_cycle_of_fault hc⟩
  · rintro hpc op rfl
    have hf := fetch_eq_ofNat hpc
    refine ⟨fun hd => ?_, fun i hd => ⟨fun f he => ?_, fun t he => ⟨tick t, tick_eq_ite t, ?_⟩⟩⟩
    · have hc := cycle_unknown hf hd
      exact ⟨hc, hostStep_cycle_of_fault hc⟩
    · have hc := cycle_fault_iff.2 (.inr (.inr ⟨_, i, hf, hd, he⟩))
      exact ⟨hc, hostStep_cycle_of_fault hc⟩
    · have hc := cycle_next_iff.2 ⟨_, i, t, hf, hd, he, rfl⟩
      exact ⟨hc, hostStep_cycle_of_next hc⟩

/-! ### Faulting operations -/

/-- Settles O15: only a cycle and a load can reply with a fault, and each then hands the state back. -/
theorem faultingOperationChangesNothing : Obligations.FaultingOperationChangesNothing := by
  intro o s f h
  cases o with
  | cycle =>
    cases hc : cycle s with
    | next r => rw [hostStep_cycle_of_next hc] at h; cases h
    | fault g => rw [hostStep_cycle_of_fault hc]
    | refused r => exact absurd hc (cycle_not_refused s r)
  | loadProgram bytes =>
    by_cases hlen : bytes.length ≤ 3584
    · rw [hostStep, loadProgram_fits hlen] at h; cases h
    · rw [hostStep, loadProgram_oversized (Nat.lt_of_not_le hlen)]; rfl
  | _ => cases h

end Sys2Proof.Machine
end

section
/-! The statements of the control transfer family (41_control_transfer.md): JP, RET, and the push that no instruction invokes. -/

namespace Sys2Proof.Machine

/-! ### Push, and the RET after it -/

/-- The state a push leaves when the stack has room (`push_next_iff`). -/
def afterPush (s : State) (h : s.sp.val < 16) : State :=
  (s.setStack ⟨s.sp.val, h⟩ s.pc).setSp ⟨s.sp.val + 1, by omega⟩

/-- A push that answers found room, and left the one state that follows. -/
theorem push_next_iff {op : Word} {s t : State} : push op s = .next t ↔ ∃ h : s.sp.val < 16, t = afterPush s h := by
  by_cases h : s.sp.val < 16
  · simp [push_free op h, afterPush, h, eq_comm]
  · simp [push_full op (show s.sp.val = 16 by omega), h]

section Push

variable {s : State} (h : s.sp.val < 16)

theorem afterPush_sp_val : (afterPush s h).sp.val = s.sp.val + 1 := rfl

theorem afterPush_stackAt (j : Fin 16) :
    (afterPush s h).stackAt j = if j.val = s.sp.val then s.pc else s.stackAt j :=
  (s.stackAt_setStack ⟨s.sp.val, h⟩ j s.pc).trans (by simp only [Fin.ext_iff])

theorem afterPush_frame : afterPush s h = { s with sp := (afterPush s h).sp, stack := (afterPush s h).stack } := rfl

/-- The entry RET pops after a push is the pushed address, wherever `PC` then is. -/
theorem afterRet_afterPush_pc (w : Word) : (afterRet { afterPush s h with pc := w }).pc = s.pc + 2#16 := by
  have hpopped : (afterPush s h).stackAt ⟨s.sp.val, h⟩ = s.pc := by rw [afterPush_stackAt, if_pos rfl]
  exact congrArg (· + 2#16) hpopped

theorem afterRet_afterPush_sp (w : Word) : (afterRet { afterPush s h with pc := w }).sp = s.sp := rfl

end Push

/-- Settles O20: the state after the push, and the RET that pops the entry it wrote. -/
theorem pushThenRetResumesAfterTheCaller : Obligations.PushThenRetResumesAfterTheCaller := by
  intro op s t hpush
  obtain ⟨hroom, rfl⟩ := push_next_iff.1 hpush
  refine ⟨hroom, afterPush_sp_val hroom, afterPush_stackAt hroom, afterPush_frame hroom, fun ign w => ?_⟩
  have hsp : (afterPush s hroom).sp.val ≠ 0 := Nat.succ_ne_zero _
  exact ⟨_, execRet_some ign hsp, afterRet_afterPush_pc hroom w, afterRet_afterPush_sp hroom w, rfl⟩

/-! ### JP -/

/-- The zero-extended immediate as the statements write it. -/
theorem zext16_eq_ofNat (nnn : Addr12) : zext16 nnn = BitVec.ofNat 16 nnn.toNat := by
  rw [← zext16_toNat, BitVec.ofNat_toNat, BitVec.setWidth_eq]

theorem exec_jp_eq (nnn : Addr12) (s : State) : exec (.jp nnn) s = .next { s with pc := BitVec.ofNat 16 nnn.toNat } := by
  rw [exec_jp, execJp, State.setPc, zext16_eq_ofNat]

/-- The words 1NNN are JP. -/
theorem decodeWord_of_and_F000_jp {op : Word} (h : op &&& 0xF000#16 = 0x1000#16) :
    decodeWord op = some (.jp (fieldNNN op)) :=
  decodeWord_family1 (congrArg BitVec.toNat ((and_F000_eq_iff op 0x1#4).1 h))

/-- At 0xFFF only the first byte of a word exists, and the fetch names the second. -/
theorem step_of_pc_0xFFF {s : State} (h : s.pc = 0x0FFF#16) :
    step s = .fault (.memoryOutOfBounds .fetch 0x1000 0x0FFF#16) := by
  have hout : 0xFFE < s.pc.toNat := by rw [h]; decide
  rw [step_fault_iff, cycle_fetch_fault (fetch_out hout), h]
  rfl

/-- Settles O16: JP's one outcome, its words, and the fetch at the one target without a whole word in memory. -/
theorem jpReplacesPc : Obligations.JpReplacesPc := by
  refine ⟨exec_jp_eq, fun op => decodeWord_of_and_F000_jp, fun s t h => step_of_pc_0xFFF ?_⟩
  rw [exec_next_eq_afterExec h]
  rfl

/-! ### RET -/

/-- Two past an address, as the statements write it: the sum wraps modulo 65536 (D7). -/
theorem add_two_eq_ofNat (w : Word) : w + 2#16 = BitVec.ofNat 16 ((w.toNat + 2) % 65536) := by
  apply BitVec.eq_of_toNat_eq
  simp only [BitVec.toNat_add, BitVec.toNat_ofNat]
  omega

/-- The words 0abE are RET. -/
theorem decodeWord_of_and_F00F_ret {op : Word} (h : op &&& 0xF00F#16 = 0x000E#16) :
    decodeWord op = some (.ret (fieldIgn op)) := by
  obtain ⟨hF, hN⟩ := (and_F00F_eq_iff op 0x0#4 0xE#4).1 h
  exact decodeWord_family0_ret (congrArg BitVec.toNat hF) (congrArg BitVec.toNat hN)

/-- Settles O17: the two outcomes of RET, told apart by `SP`, and its words. -/
theorem retPopsAndStepsPastTheCall : Obligations.RetPopsAndStepsPastTheCall :=
  ⟨fun ign s hsp => ⟨afterRet s, execRet_some ign hsp.ne', rfl, add_two_eq_ofNat _, rfl⟩,
    fun ign _ hsp => execRet_empty ign hsp, fun _ => decodeWord_of_and_F00F_ret⟩

end Sys2Proof.Machine
end

section
/-! The statements of the register family (42_register_ops.md): LD Vx, ADD Vx and LD I complete in every state. -/

namespace Sys2Proof.Machine

/-! ### The words of the family -/

section Words

variable {op : Word}

/-- The words 6XNN are LD Vx, NN. -/
theorem decodeWord_of_and_F000_ldV (h : op &&& 0xF000#16 = 0x6000#16) :
    decodeWord op = some (.ldV (fieldX op) (fieldNN op)) :=
  decodeWord_family6 (congrArg BitVec.toNat ((and_F000_eq_iff op 0x6#4).1 h))

/-- The words 7XNN are ADD Vx, NN. -/
theorem decodeWord_of_and_F000_addV (h : op &&& 0xF000#16 = 0x7000#16) :
    decodeWord op = some (.addV (fieldX op) (fieldNN op)) :=
  decodeWord_family7 (congrArg BitVec.toNat ((and_F000_eq_iff op 0x7#4).1 h))

/-- The words ANNN are LD I, NNN. -/
theorem decodeWord_of_and_F000_ldI (h : op &&& 0xF000#16 = 0xA000#16) : decodeWord op = some (.ldI (fieldNNN op)) :=
  decodeWord_familyA (congrArg BitVec.toNat ((and_F000_eq_iff op 0xA#4).1 h))

end Words

/-! ### The next states -/

/-- The step to the next word, as the statements write it. -/
theorem State.advance_eq_ofNat (s : State) : s.advance = { s with pc := BitVec.ofNat 16 ((s.pc.toNat + 2) % 65536) } := by
  rw [State.advance, State.setPc, add_two_eq_ofNat]

/-- The sum of two bytes, as the statements write it: it wraps modulo 256 and the carry is lost (C8). -/
theorem byte_add_eq_ofNat (a b : Byte) : a + b = BitVec.ofNat 8 ((a.toNat + b.toNat) % 256) := by
  apply BitVec.eq_of_toNat_eq
  simp only [BitVec.toNat_add, BitVec.toNat_ofNat]
  omega

theorem exec_ldV_eq (x : Reg) (nn : Byte) (s : State) :
    exec (.ldV x nn) s =
      .next { s with v := s.v.set x.val nn, pc := BitVec.ofNat 16 ((s.pc.toNat + 2) % 65536) } := by
  rw [exec_ldV, execLdV, State.advance_eq_ofNat]
  rfl

theorem exec_addV_eq (x : Reg) (nn : Byte) (s : State) :
    exec (.addV x nn) s =
      .next { s with
        v := s.v.set x.val (BitVec.ofNat 8 (((s.reg x).toNat + nn.toNat) % 256))
        pc := BitVec.ofNat 16 ((s.pc.toNat + 2) % 65536) } := by
  rw [exec_addV, execAddV, State.advance_eq_ofNat, byte_add_eq_ofNat]
  rfl

theorem exec_ldI_eq (nnn : Addr12) (s : State) :
    exec (.ldI nnn) s =
      .next { s with i := BitVec.ofNat 16 nnn.toNat, pc := BitVec.ofNat 16 ((s.pc.toNat + 2) % 65536) } := by
  rw [exec_ldI, execLdI, State.advance_eq_ofNat, zext16_eq_ofNat]
  rfl

/-- An ADD to a register other than VF leaves VF as it was, on overflow too. -/
theorem exec_addV_vf {x : Reg} {nn : Byte} {s t : State} (h : exec (.addV x nn) s = .next t) (hx : x ≠ 15) :
    t.reg 15 = s.reg 15 := by
  obtain rfl := exec_next_eq_afterExec h
  exact s.reg_setReg_other (Ne.symm hx) _

/-- A zero-extended immediate has its top four bits 0. -/
theorem zext16_le (nnn : Addr12) : (zext16 nnn).toNat ≤ 0x0FFF := by
  rw [zext16_toNat]
  exact Nat.le_of_lt_succ nnn.isLt

/-! ### The statements -/

/-- Settles O21: LD's one outcome, and its words. -/
theorem ldVLoadsTheImmediate : Obligations.LdVLoadsTheImmediate := by
  refine ⟨exec_ldV_eq, fun op h => ?_⟩
  rw [← fieldX_eq_ofNat]
  exact decodeWord_of_and_F000_ldV h

/-- Settles O22: ADD's one outcome, the frame of VF, and its words. -/
theorem addVAddsModulo256WithoutCarry : Obligations.AddVAddsModulo256WithoutCarry := by
  refine ⟨exec_addV_eq, fun _ _ _ _ => exec_addV_vf, fun op h => ?_⟩
  rw [← fieldX_eq_ofNat]
  exact decodeWord_of_and_F000_addV h

/-- Settles O23: LD I's one outcome, the bound of the immediate it writes, and its words. -/
theorem ldILoadsTheAddress : Obligations.LdILoadsTheAddress := by
  refine ⟨exec_ldI_eq, fun nnn => ?_, fun _ => decodeWord_of_and_F000_ldI⟩
  rw [← zext16_eq_ofNat]
  exact zext16_le nnn

end Sys2Proof.Machine
end

section
/-! The statements of the display family (43_display.md): the closed form of DRW, the second draw of a sprite, the empty
sprite, CLS, and where a sprite's columns land. -/

namespace Sys2Proof.Machine

/-! ### What DRW validates and what it targets -/

/-- The condition of 43_display.md R65 under which DRW completes (`exec_drw_next_iff`): every row's byte exists and every set
sprite bit lands inside the framebuffer. -/
def DrwFits (x y : Reg) (n : BitVec 4) (s : State) : Prop :=
  ∀ r, r < n.toNat → s.i.toNat + r ≤ 0x0FFF ∧
    ∀ c, c < 8 → (s.mem.read (s.i.toNat + r)).getLsbD (7 - c) = true →
      ((s.reg x).toNat + c) + ((s.reg y).toNat + r) * 64 ≤ 2047

/-- The cells DRW toggles (`afterDrw_fb_cell`), in scan order. -/
def drwTargets (x y : Reg) (n : BitVec 4) (s : State) : List Nat :=
  spriteTargets s.mem s.i (s.reg x).toNat (s.reg y).toNat n.toNat

section Drw

variable {x y : Reg} {n : BitVec 4} {s t : State}

theorem checkSprite_eq_none_iff_drwFits {op : Word} :
    checkSprite op s (s.reg x).toNat (s.reg y).toNat n.toNat = none ↔ DrwFits x y n s := by
  rw [checkSprite_eq_none]
  exact forall₂_congr fun r _ =>
    checkRow_eq_none.trans (and_congr_right' (forall₃_congr fun c _ _ => Nat.lt_succ_iff))

theorem exec_drw_next_iff : exec (.drw x y n) s = .next t ↔ DrwFits x y n s ∧ t = afterDrw x y n s := by
  rw [exec_drw, execDrw_next_iff, checkSprite_eq_none_iff_drwFits]

/-- A target has a property iff some set sprite bit has an index with it. -/
theorem exists_mem_drwTargets {p : Nat → Prop} :
    (∃ k ∈ drwTargets x y n s, p k) ↔
      ∃ r c, r < n.toNat ∧ c < 8 ∧ (s.mem.read (s.i.toNat + r)).getLsbD (7 - c) = true ∧
        p (((s.reg x).toNat + c) + ((s.reg y).toNat + r) * 64) := by
  constructor
  · rintro ⟨k, hk, hp⟩
    obtain ⟨r, hr, c, hc, hbit, rfl⟩ := mem_spriteTargets.1 hk
    exact ⟨r, c, hr, hc, hbit, hp⟩
  · rintro ⟨r, c, hr, hc, hbit, hp⟩
    exact ⟨_, mem_spriteTargets.2 ⟨r, hr, c, hc, hbit, rfl⟩, hp⟩

theorem mem_drwTargets {k : Nat} :
    k ∈ drwTargets x y n s ↔
      ∃ r c, r < n.toNat ∧ c < 8 ∧ (s.mem.read (s.i.toNat + r)).getLsbD (7 - c) = true ∧
        ((s.reg x).toNat + c) + ((s.reg y).toNat + r) * 64 = k := by
  rw [← exists_mem_drwTargets (p := (· = k)), exists_eq_right]

theorem drwTargets_nodup : (drwTargets x y n s).Nodup := spriteTargets_nodup _ _ _ _ _

theorem drwTargets_lt (h : DrwFits x y n s) : ∀ k ∈ drwTargets x y n s, k < 2048 :=
  spriteTargets_lt (op := encode (.drw x y n)) (checkSprite_eq_none_iff_drwFits.2 h)

/-! ### The state after DRW -/

/-- DRW toggles exactly its targets. -/
theorem afterDrw_fb_cell (h : DrwFits x y n s) (k : Nat) :
    (afterDrw x y n s).fb.cell k = (s.fb.cell k ^^ decide (k ∈ drwTargets x y n s)) :=
  drawTargets_cell drwTargets_nodup (drwTargets_lt h) s.fb k

theorem afterDrw_vf (h : DrwFits x y n s) :
    (afterDrw x y n s).reg 15 = collisionByte ((drwTargets x y n s).any s.fb.cell) := by
  rw [← drawTargets_hit drwTargets_nodup (drwTargets_lt h)]
  exact afterDrw_reg s x y n 15

theorem afterDrw_frame (x y : Reg) (n : BitVec 4) (s : State) :
    afterDrw x y n s = { s with
      v := s.v.set 15 ((afterDrw x y n s).reg 15)
      fb := (afterDrw x y n s).fb
      draw := true
      pc := BitVec.ofNat 16 ((s.pc.toNat + 2) % 65536) } := by
  rw [← add_two_eq_ofNat, afterDrw_reg]
  rfl

theorem collisionByte_eq_one_iff {hit : Bool} : collisionByte hit = 0x01#8 ↔ hit = true := by cases hit <;> decide

/-- DRW reports a collision iff some set sprite bit lands on a set cell. -/
theorem afterDrw_vf_eq_one_iff (h : DrwFits x y n s) :
    (afterDrw x y n s).reg 15 = 0x01#8 ↔
      ∃ r c, r < n.toNat ∧ c < 8 ∧ (s.mem.read (s.i.toNat + r)).getLsbD (7 - c) = true ∧
        s.fb.cell (((s.reg x).toNat + c) + ((s.reg y).toNat + r) * 64) = true := by
  rw [afterDrw_vf h, collisionByte_eq_one_iff, List.any_eq_true, exists_mem_drwTargets]

theorem afterDrw_vf_eq_zero_or_one (h : DrwFits x y n s) :
    (afterDrw x y n s).reg 15 = 0x00#8 ∨ (afterDrw x y n s).reg 15 = 0x01#8 := by
  rw [afterDrw_vf h]
  exact collisionByte_eq_zero_or_one _

end Drw

/-- Settles O25: a DRW that fits answers `afterDrw`, whose cells and `V[15]` are told by its targets. -/
theorem drwClosedForm : Obligations.DrwClosedForm := by
  intro x y n s hfits
  refine ⟨_, exec_drw_next_iff.2 ⟨hfits, rfl⟩, fun k _ => ⟨fun htarget => ?_, fun hother => ?_⟩,
    (afterDrw_vf_eq_one_iff hfits).2, fun hnone => ?_, afterDrw_frame x y n s, fun _ => rfl⟩
  · rw [afterDrw_fb_cell hfits, decide_eq_true (mem_drwTargets.2 htarget), Bool.xor_true]
  · rw [afterDrw_fb_cell hfits, decide_eq_false (mt mem_drwTargets.1 hother), Bool.xor_false]
  · exact (afterDrw_vf_eq_zero_or_one hfits).resolve_right (mt (afterDrw_vf_eq_one_iff hfits).1 hnone)

/-! ### The second draw -/

section Twice

variable {x y : Reg} {n : BitVec 4} {s t : State}

/-- Whether DRW fits depends on the sprite's bytes, their place and the coordinates only. -/
theorem DrwFits.congr (h : DrwFits x y n s) (hmem : t.mem = s.mem) (hi : t.i = s.i) (hx : t.reg x = s.reg x)
    (hy : t.reg y = s.reg y) : DrwFits x y n t := by
  simpa only [DrwFits, hmem, hi, hx, hy] using h

/-- What DRW targets depends on the sprite's bytes, their place and the coordinates only. -/
theorem drwTargets_congr (hmem : t.mem = s.mem) (hi : t.i = s.i) (hx : t.reg x = s.reg x) (hy : t.reg y = s.reg y) :
    drwTargets x y n t = drwTargets x y n s := by
  simp only [drwTargets, hmem, hi, hx, hy]

/-- Two draws with the same targets toggle each of them twice. -/
theorem afterDrw_afterDrw_fb (hs : DrwFits x y n s) (ht : DrwFits x y n (afterDrw x y n s))
    (htargets : drwTargets x y n (afterDrw x y n s) = drwTargets x y n s) :
    (afterDrw x y n (afterDrw x y n s)).fb = s.fb := by
  refine Framebuffer.ext_cell fun k _ => ?_
  rw [afterDrw_fb_cell ht, afterDrw_fb_cell hs, htargets, Bool.xor_assoc, Bool.xor_self, Bool.xor_false]

/-- A target is set after a draw iff it was clear before it. -/
theorem afterDrw_fb_cell_target (hs : DrwFits x y n s) {k : Nat} (hk : k ∈ drwTargets x y n s) :
    (afterDrw x y n s).fb.cell k = true ↔ s.fb.cell k = false := by
  rw [afterDrw_fb_cell hs, decide_eq_true hk, Bool.xor_true, Bool.not_eq_true']

end Twice

/-- Settles O28: the second draw fits and has the first's targets, each of which the first draw has flipped. -/
theorem drawingTwiceRestoresTheFramebuffer : Obligations.DrawingTwiceRestoresTheFramebuffer := by
  intro x y n s t hfirst hx hy
  obtain ⟨hs, rfl⟩ := exec_drw_next_iff.1 hfirst
  have ht : DrwFits x y n (afterDrw x y n s) := hs.congr rfl rfl hx hy
  have htargets : drwTargets x y n (afterDrw x y n s) = drwTargets x y n s :=
    drwTargets_congr rfl rfl hx hy
  refine ⟨_, exec_drw_next_iff.2 ⟨ht, rfl⟩, afterDrw_afterDrw_fb hs ht htargets, ?_, afterDrw_vf_eq_zero_or_one ht⟩
  rw [afterDrw_vf ht, collisionByte_eq_one_iff, List.any_eq_true, htargets,
    ← exists_mem_drwTargets (p := fun k => s.fb.cell k = false)]
  exact exists_congr fun k => and_congr_right fun hk => afterDrw_fb_cell_target hs hk

/-! ### The empty sprite -/

/-- A sprite of no rows has nothing to validate. -/
theorem drwFits_zero (x y : Reg) (s : State) : DrwFits x y 0#4 s := fun r hr => absurd hr (Nat.not_lt_zero r)

/-- A sprite of no rows toggles no cell and reports no collision. -/
theorem afterDrw_zero (x y : Reg) (s : State) :
    afterDrw x y 0#4 s = { s with
      v := s.v.set 15 0x00#8
      draw := true
      pc := BitVec.ofNat 16 ((s.pc.toNat + 2) % 65536) } := by
  rw [← add_two_eq_ofNat]
  rfl

/-- Settles O27: a sprite of no rows fits anywhere and has no targets. -/
theorem drwOfZeroRowsCompletes : Obligations.DrwOfZeroRowsCompletes := fun x y s =>
  exec_drw_next_iff.2 ⟨drwFits_zero x y s, (afterDrw_zero x y s).symm⟩

/-! ### CLS -/

/-- The words 0ab0 are CLS. -/
theorem decodeWord_of_and_F00F_cls {op : Word} (h : op &&& 0xF00F#16 = 0x0000#16) :
    decodeWord op = some (.cls (fieldIgn op)) := by
  obtain ⟨hF, hN⟩ := (and_F00F_eq_iff op 0x0#4 0x0#4).1 h
  exact decodeWord_family0_cls (congrArg BitVec.toNat hF) (congrArg BitVec.toNat hN)

/-- Settles O24: CLS's one outcome, whose framebuffer is zero, and its words. -/
theorem clsClearsEveryCell : Obligations.ClsClearsEveryCell :=
  ⟨fun _ _ => ⟨_, rfl, fun k _ => Framebuffer.cell_zero k, State.advance_eq_ofNat _⟩,
    fun _ => decodeWord_of_and_F00F_cls⟩

/-! ### Where a sprite's columns land -/

/-- Settles O30: the two pixels have the target's index, by division with remainder of the column. -/
theorem spriteColumnsSpillIntoLaterRows : Obligations.SpriteColumnsSpillIntoLaterRows := by
  refine fun fb ox oy r c _ => ⟨fun _ => rfl, fun _ => congrArg fb.cell ?_⟩
  simp only [cellIndex, Config.fbW]
  omega

end Sys2Proof.Machine
end

section
/-! The statements of the exceptions family (60_exceptions.md): which faults a cycle, a push and a load raise, the first violation
of a sprite, the timers and the tone, and what no step observes: the timers, the keys and the draw flag. -/

namespace Sys2Proof.Machine

/-! ### The faults of a cycle -/

/-- An execute phase raises a fault of code 3 (RET), 4 or 5 (DRW). -/
theorem exec_fault_code {i : Instr} {s : State} {f : Fault} (h : exec i s = .fault f) : f.code ∈ [3, 4, 5] := by
  rcases exec_fault_cases h with ⟨_, -, -, rfl⟩ | ⟨x, y, n, -, hcheck⟩
  · simp [Fault.code]
  · rcases checkSprite_code hcheck with hcode | hcode <;> simp [hcode]

/-- Each phase of a cycle has its codes: the fetch 4, the decode 1, the execute phase 3, 4 and 5. -/
theorem cycle_fault_code {s : State} {f : Fault} (h : cycle s = .fault f) : f.code ∈ [1, 3, 4, 5] := by
  rcases cycle_fault_iff.1 h with hfetch | ⟨op, -, -, rfl⟩ | ⟨op, i, -, -, hexec⟩
  · have hpc : 0xFFE < s.pc.toNat := by
      by_contra hin
      nomatch (fetch_in (Nat.le_of_not_lt hin)).symm.trans hfetch
    obtain rfl := Except.error.inj ((fetch_out hpc).symm.trans hfetch)
    simp [Fault.code]
  · simp [Fault.code]
  · exact List.mem_cons_of_mem 1 (exec_fault_code hexec)

/-- Settles O14: no cycle refuses, and `cycle_fault_code` bounds its faults. -/
theorem everyCycleEndsInOkOrACycleFault : Obligations.EveryCycleEndsInOkOrACycleFault := by
  intro s
  cases hc : cycle s with
  | next r => exact .inl ⟨r, rfl⟩
  | fault f => exact .inr ⟨f, rfl, cycle_fault_code hc⟩
  | refused r => exact absurd hc (cycle_not_refused s r)

/-- Settles O19: the two outcomes of a push, told apart by `SP`; its fault has code 2, which no cycle's fault has. -/
theorem stackOverflowIsOnlyPushs : Obligations.StackOverflowIsOnlyPushs := by
  refine ⟨fun op s hfull => push_full op hfull, fun op s hsp => ?_, fun s pc op h => ?_⟩
  · have hroom : s.sp.val < 16 := by omega
    exact ⟨_, push_free op hroom⟩
  · have hcode := cycle_fault_code h
    simp [Fault.code] at hcode

/-- Settles O9: the fetch's fault names the first byte out of range, the greater of `PC` and 0x1000. -/
theorem fetchOutsideMemoryFaults : Obligations.FetchOutsideMemoryFaults := by
  intro s hpc
  have haddr : (if 0x0FFF < s.pc.toNat then s.pc.toNat else 0x1000) = max s.pc.toNat 0x1000 := by
    split <;> omega
  rw [step_fault_iff, haddr, cycle_fetch_fault (fetch_out hpc)]

/-- Settles O18: the word decodes to RET, whose fault report carries the word it was decoded from. -/
theorem retOnEmptyStackIsReportedAndChangesNothing : Obligations.RetOnEmptyStackIsReportedAndChangesNothing := by
  intro s op hpc hop hret hsp
  have hfetch : fetch s = .ok op := hop ▸ fetch_eq_ofNat hpc
  have hd := decodeWord_of_and_F00F_ret hret
  have he : exec (.ret (fieldIgn op)) s = .fault (.stackUnderflow s.pc op) := by
    rw [exec_ret, execRet_empty _ (congrArg Fin.val hsp), encode_of_decodeWord hd]
  exact hostStep_cycle_of_fault (cycle_fault_iff.2 (.inr (.inr ⟨op, _, hfetch, hd, he⟩)))

/-! ### The first violation of a sprite -/

theorem exec_drw_fault_iff {x y : Reg} {n : BitVec 4} {s : State} {f : Fault} :
    exec (.drw x y n) s = .fault f ↔
      checkSprite (encode (.drw x y n)) s (s.reg x).toNat (s.reg y).toNat n.toNat = some f := by
  rw [exec_drw]
  cases hc : checkSprite (encode (.drw x y n)) s (s.reg x).toNat (s.reg y).toNat n.toNat with
  | none => simp [execDrw_ok hc]
  | some g => simp [execDrw_fault hc]

/-- A row's violation is its missing byte, or the first set bit that lands outside the framebuffer. -/
theorem checkRow_eq_some {op : Word} {s : State} {ox oy r : Nat} {f : Fault} :
    checkRow op s ox oy r = some f ↔
      (0xFFF < rowAddr s.i r ∧ f = .memoryOutOfBounds (.sprite op) (rowAddr s.i r) s.pc) ∨
      (rowAddr s.i r ≤ 0xFFF ∧
        ∃ c, c < 8 ∧ spriteBit (s.mem.read (rowAddr s.i r)) c = true ∧ 2047 < cellIndex ox oy r c ∧
          (∀ d, d < c → spriteBit (s.mem.read (rowAddr s.i r)) d = true → cellIndex ox oy r d ≤ 2047) ∧
          f = .framebufferOutOfBounds (cellIndex ox oy r c) s.pc op) := by
  by_cases h : rowAddr s.i r ≤ 0xFFF
  · rw [checkRow_in h, findSome_range_eq_some]
    constructor
    · rintro ⟨c, hc, hsome, hnone⟩
      obtain ⟨hbit, hout, rfl⟩ := checkCell_eq_some.1 hsome
      exact .inr ⟨h, c, hc, hbit, hout, fun d hd hb => Nat.le_of_lt_succ (checkCell_eq_none.1 (hnone d hd) hb), rfl⟩
    · rintro (⟨hmissing, -⟩ | ⟨-, c, hc, hbit, hout, hbefore, rfl⟩)
      · omega
      · exact ⟨c, hc, checkCell_eq_some.2 ⟨hbit, hout, rfl⟩,
          fun d hd => checkCell_eq_none.2 fun hb => Nat.lt_succ_of_le (hbefore d hd hb)⟩
  · have hout : 0xFFF < rowAddr s.i r := Nat.lt_of_not_le h
    rw [checkRow_out hout]
    constructor
    · exact fun hf => .inl ⟨hout, (Option.some.inj hf).symm⟩
    · rintro (⟨-, rfl⟩ | ⟨hin, -⟩)
      · rfl
      · exact absurd hin h

/-- Settles O26: the validation's answer is its first row that fails, and that row's answer its first violation. -/
theorem drwReportsTheFirstViolation : Obligations.DrwReportsTheFirstViolation := by
  intro x y n s f
  rw [exec_drw_fault_iff, checkSprite, findSome_range_eq_some]
  refine exists_congr fun r => and_congr_right' ?_
  rw [and_comm, checkRow_eq_some]
  exact and_congr_left' (forall₂_congr fun q _ =>
    checkRow_eq_none.trans (and_congr_right' (forall₃_congr fun c _ _ => Nat.lt_succ_iff)))

/-! ### The timers and the tone -/

/-- Settles O36: by induction on the number of cycles, each of which takes 1 from a timer above 0. -/
theorem timersCountSuccessfulCycles : Obligations.TimersCountSuccessfulCycles := by
  intro n
  induction n with
  | zero =>
    intro s t h
    obtain rfl := Host.Outcome.next.inj h
    exact ⟨rfl, rfl⟩
  | succ n ih =>
    intro s t h
    obtain ⟨u, hstep, hrun⟩ := runFrom_succ_iff.1 h
    obtain ⟨hdt, hst⟩ := step_next_timers hstep
    obtain ⟨hdt', hst'⟩ := ih u t hrun
    omega

/-- A completed cycle answers the `ST` it started with, and counts it down. -/
theorem cycle_next_sound {s : State} {r : CycleOk} (h : cycle s = .next r) :
    r.soundPre = s.st ∧ r.after.st = countdown s.st := by
  obtain ⟨_, i, u, _, _, he, rfl⟩ := cycle_next_iff.1 h
  obtain rfl := exec_next_eq_afterExec he
  exact ⟨afterExec_st i s, congrArg countdown (afterExec_st i s)⟩

theorem toneInstant_iff (b : Byte) : toneInstant b = true ↔ b = 0x01#8 ∧ countdown b = 0x00#8 := by
  rw [toneInstant, beq_iff_eq]
  refine ⟨fun h => ⟨h, ?_⟩, fun h => h.1⟩
  rw [h]
  rfl

/-- Settles O37: `sound_pre` is the `ST` before the cycle, and 1 is the value that counts down to 0. -/
theorem soundPreSignalsTheTone : Obligations.SoundPreSignalsTheTone := by
  refine ⟨fun s => rfl, fun s r h => ?_⟩
  obtain ⟨hpre, hafter⟩ := cycle_next_sound h
  rw [hostStep_cycle_of_next h, hpre, hafter]
  exact ⟨rfl, rfl, toneInstant_iff s.st⟩

/-! ### What no step observes -/

theorem mapNext_id (r : Result) : mapNext id r = r := by cases r <;> rfl

section Devices

variable {s t : State} (h : eraseDevices s = eraseDevices t)
include h

theorem core_eq_of_eraseDevices_eq : s.v = t.v ∧ s.i = t.i ∧ s.pc = t.pc ∧ s.sp = t.sp ∧ s.mem = t.mem :=
  ⟨(congrArg State.v h :), (congrArg State.i h :), (congrArg State.pc h :), (congrArg State.sp h :),
    (congrArg State.mem h :)⟩

theorem fetch_eq_of_eraseDevices_eq : fetch t = fetch s := by
  obtain ⟨-, -, hpc, -, hmem⟩ := core_eq_of_eraseDevices_eq h
  simp only [fetch, memRead2, memRead1, hmem, hpc]

/-- Whether an execute phase completes, and with what fault it ends otherwise, no device decides. -/
theorem exec_eq_of_eraseDevices_eq (i : Instr) : exec i t = mapNext (fun _ => afterExec i t) (exec i s) := by
  obtain ⟨hv, hi, hpc, hsp, hmem⟩ := core_eq_of_eraseDevices_eq h
  cases i with
  | ret ign =>
    rw [exec_ret, exec_ret]
    by_cases hs : s.sp.val = 0
    · rw [execRet_empty ign hs, execRet_empty ign (hsp ▸ hs), hpc]; rfl
    · rw [execRet_some ign hs, execRet_some ign (hsp ▸ hs)]; rfl
  | drw x y n =>
    have hreg (r : Reg) : t.reg r = s.reg r := congrArg (·[r.val]) hv.symm
    have hcheck : checkSprite (encode (.drw x y n)) t (t.reg x).toNat (t.reg y).toNat n.toNat =
        checkSprite (encode (.drw x y n)) s (s.reg x).toNat (s.reg y).toNat n.toNat := by
      rw [hreg x, hreg y]
      exact checkSprite_congr hmem.symm hi.symm hpc.symm _ _ _ _
    rw [exec_drw, exec_drw]
    cases hc : checkSprite (encode (.drw x y n)) s (s.reg x).toNat (s.reg y).toNat n.toNat with
    | none => rw [execDrw_ok hc, execDrw_ok (hcheck.trans hc)]; rfl
    | some f => rw [execDrw_fault hc, execDrw_fault (hcheck.trans hc)]; rfl
  | _ => rfl

/-- From two states that differ in their devices only, a step ends with the same fault, or with two next states that are equal
in every view in which the completed instructions' are. -/
theorem mapNext_step_of_eraseDevices_eq {p q : State → State}
    (hview : ∀ i, p (tick (afterExec i t)) = q (tick (afterExec i s))) : mapNext p (step t) = mapNext q (step s) := by
  have hfetch := fetch_eq_of_eraseDevices_eq h
  cases hf : fetch s with
  | error f =>
    rw [step_fault_iff.2 (cycle_fetch_fault hf), step_fault_iff.2 (cycle_fetch_fault (hfetch.trans hf))]; rfl
  | ok op =>
    cases hd : decodeWord op with
    | none =>
      obtain ⟨-, -, hpc, -, -⟩ := core_eq_of_eraseDevices_eq h
      rw [step_fault_iff.2 (cycle_unknown hf hd), step_fault_iff.2 (cycle_unknown (hfetch.trans hf) hd), hpc]; rfl
    | some i =>
      rw [step_decoded hf hd, step_decoded (hfetch.trans hf) hd, exec_eq_of_eraseDevices_eq h]
      cases he : exec i s with
      | next u =>
        obtain rfl := exec_next_eq_afterExec he
        exact congrArg Host.Outcome.next (hview i)
      | fault f => rfl
      | refused r => rfl

end Devices

/-- No completed instruction copies a device into another element of the state. -/
theorem eraseDevices_afterExec_eraseDevices (i : Instr) (s : State) :
    eraseDevices (afterExec i (eraseDevices s)) = eraseDevices (afterExec i s) := by
  cases i <;> rfl

theorem eraseDevices_tick (s : State) : eraseDevices (tick s) = eraseDevices s := rfl

theorem tick_afterExec_setKey (i : Instr) (k : Fin 16) (b : Bool) (s : State) :
    tick (afterExec i (s.setKey k b)) = (tick (afterExec i s)).setKey k b := by
  cases i <;> rfl

/-- Settles O45: the erased next states are equal because no instruction copies a device. -/
theorem programsObserveNoDeviceState : Obligations.ProgramsObserveNoDeviceState := by
  refine fun s s' h => mapNext_step_of_eraseDevices_eq h.symm fun i => ?_
  rw [eraseDevices_tick, eraseDevices_tick, ← eraseDevices_afterExec_eraseDevices, h, eraseDevices_afterExec_eraseDevices]

/-- Settles O44: the two states differ in a device only, and the write commutes with the completed instruction and the tick. -/
theorem keyTableIsNeverObserved : Obligations.KeyTableIsNeverObserved := by
  refine fun k b s => ⟨rfl, fun j => s.key_setKey k j b, rfl, ?_⟩
  rw [← mapNext_id (step (setKeyOp k b s))]
  exact mapNext_step_of_eraseDevices_eq (s := s) (t := setKeyOp k b s) rfl fun i => tick_afterExec_setKey i k b s

/-! ### The draw flag -/

/-- A cycle that sets the draw flag executed CLS or DRW. -/
theorem current_of_cycle_sets_draw {s : State} (hclear : s.draw = false) (hset : (hostStep .cycle s).1.draw = true) :
    (∃ ign, current s = some (.cls ign)) ∨ ∃ x y n, current s = some (.drw x y n) := by
  cases hc : cycle s with
  | next r =>
    obtain ⟨op, i, u, hf, hd, he, rfl⟩ := cycle_next_iff.1 hc
    obtain rfl := exec_next_eq_afterExec he
    rw [hostStep_cycle_of_next hc, tick_draw] at hset
    rw [current_eq_some hf hd]
    cases i with
    | cls ign => exact .inl ⟨ign, rfl⟩
    | drw x y n => exact .inr ⟨x, y, n, rfl⟩
    | _ =>
      rw [afterExec_draw s (by simp) (by simp), hclear] at hset
      cases hset
  | fault f =>
    rw [hostStep_cycle_of_fault hc, hclear] at hset
    cases hset
  | refused r => exact absurd hc (cycle_not_refused s r)

/-- Settles O46: of the operations only a cycle can leave a clear flag set, and then by CLS or DRW. -/
theorem clearDrawFlagClearsOnlyTheFlag : Obligations.ClearDrawFlagClearsOnlyTheFlag := by
  refine ⟨fun s => rfl, fun s => rfl, fun o s hclear hset => ?_⟩
  by_cases hcycle : o = .cycle
  · subst hcycle
    exact ⟨rfl, current_of_cycle_sets_draw hclear hset⟩
  · have hkept : (hostStep o s).1.draw = false := by
      cases o with
      | cycle => exact absurd rfl hcycle
      | clearDrawFlag => rfl
      | powerOn => rfl
      | _ => rw [hostStep_draw s (by simp) (by simp) (by simp), hclear]
    rw [hkept] at hset
    cases hset

/-! ### The framebuffer view and the rejected load -/

theorem hostStep_fb {o : HostOp} (s : State) (hcycle : o ≠ .cycle) (hreset : o ≠ .reset) (hpower : o ≠ .powerOn) :
    (hostStep o s).1.fb = s.fb := by
  cases o with
  | cycle => exact absurd rfl hcycle
  | reset => exact absurd rfl hreset
  | powerOn => exact absurd rfl hpower
  | loadProgram bytes => rw [hostStep_loadProgram_frame]
  | _ => rfl

/-- Settles O47: the view hands the state back, and `hostStep_fb` is the frame of the framebuffer. -/
theorem framebufferViewIsReadOnly : Obligations.FramebufferViewIsReadOnly :=
  ⟨fun _ => rfl, fun _ _ _ => rfl, fun _ s => hostStep_fb s⟩

/-- Settles O40: a load that does not fit is rejected, and the host is handed the state it had. -/
theorem oversizedLoadIsRejected : Obligations.OversizedLoadIsRejected := by
  intro bytes s hlen
  have hload := loadProgram_oversized hlen s
  refine ⟨hload, ?_⟩
  rw [hostStep, hload, afterLoad]

end Sys2Proof.Machine
end

section
/-! The statements of the reset and hazards family (70_reset_and_hazards.md): the invariant of R95, the reset's memory, the
sprites that cannot fault, the jump to itself, and the runs that end by leaving memory. -/

namespace Sys2Proof.Machine

/-! ### The facts of R95 -/

/-- The facts are about constants that `Reset` writes. -/
theorem reachableFacts_resetOp (s : State) : ReachableFacts (resetOp s) where
  sp_zero := rfl
  stack_zero := State.reset_stackAt
  dt_zero := rfl
  st_zero := rfl
  i_le := Nat.zero_le _
  low_memory _ _ := rfl
  pc_le := by simp [resetOp]
  mem_wf := Memory.wf_nil

/-- Settles O48: the reset state is what `Reset` makes of itself. -/
theorem reachableFactsHoldAtReset : Obligations.ReachableFactsHoldAtReset := reachableFacts_resetOp State.reset

section Facts

variable {s : State} (h : ReachableFacts s)
include h

/-- A fetched instruction other than RET keeps the facts: `PC + 2` stays within 0x1000, JP's target and `I`'s immediate have
12 bits. -/
theorem ReachableFacts.tick_afterExec {i : Instr} (hpc : s.pc.toNat ≤ 0xFFE) (hret : ∀ ign, i ≠ .ret ign) :
    ReachableFacts (tick (afterExec i s)) where
  sp_zero := (afterExec_sp s hret).trans h.sp_zero
  stack_zero j := by
    rw [stackAt_tick, State.stackAt, afterExec_stack]
    exact h.stack_zero j
  dt_zero := by rw [tick_dt, afterExec_dt, h.dt_zero, countdown_zero]
  st_zero := by rw [tick_st, afterExec_st, h.st_zero, countdown_zero]
  i_le := by
    rw [tick_i]
    cases i with
    | ldI nnn => exact zext16_le nnn
    | _ => rw [afterExec_i s (by simp)]; exact h.i_le
  low_memory := by rw [tick_mem, afterExec_mem]; exact h.low_memory
  pc_le := by
    rw [tick_pc]
    cases i with
    | jp nnn => exact (zext16_le nnn).trans (by decide)
    | ret ign => exact absurd rfl (hret ign)
    | _ => rw [afterExec_pc s (by simp) (by simp), State.advance_pc, pc_add_two_toNat (by omega)]; omega
  mem_wf := by rw [State.Wf, tick_mem, afterExec_mem]; exact h.mem_wf

/-- The stack is empty, so no RET completes. -/
theorem ReachableFacts.of_step {t : State} (hstep : step s = .next t) : ReachableFacts t := by
  obtain ⟨op, i, u, hf, -, he, rfl⟩ := step_next_iff.1 hstep
  obtain ⟨hpc, -⟩ := fetch_ok_iff.1 hf
  obtain rfl := exec_next_eq_afterExec he
  refine h.tick_afterExec hpc ?_
  rintro ign rfl
  exact (sp_pos_of_exec_ret he).ne' (congrArg Fin.val h.sp_zero)

/-- A load writes from 0x200 up. -/
theorem ReachableFacts.of_writeBytes {a : Nat} {bytes : List Byte} (hlen : a + bytes.length ≤ 4096)
    (ha : Config.progBase ≤ a) : ReachableFacts (writeBytes a bytes hlen s) := by
  have hlow (x : Nat) (hx : x < Config.progBase) : (writeBytes a bytes hlen s).mem.read x = Memory.initial x :=
    (writeBytes_read_outside hlen s (.inl (hx.trans_le ha))).trans (h.low_memory x hx)
  have hwf := writeBytes_wf a bytes hlen h.mem_wf
  rw [writeBytes_frame]
  exact { h with low_memory := hlow, mem_wf := hwf }

/-- No fact is about the key table or the draw flag. -/
theorem ReachableFacts.setDevices (keys : Vector Bool 16) (draw : Bool) :
    ReachableFacts { s with keys := keys, draw := draw } := { h with }

theorem ReachableFacts.of_hostStep (o : HostOp) : ReachableFacts (hostStep o s).1 := by
  cases o with
  | powerOn => exact reachableFacts_resetOp _
  | reset => exact reachableFacts_resetOp s
  | loadProgram bytes =>
    by_cases hlen : bytes.length ≤ 3584
    · rw [hostStep, loadProgram_fits hlen]; exact h.of_writeBytes _ (Nat.le_refl _)
    · rw [hostStep, loadProgram_oversized (Nat.lt_of_not_le hlen)]; exact h
  | cycle =>
    cases hc : cycle s with
    | next r => rw [hostStep_cycle_of_next hc]; exact h.of_step (by rw [step, hc]; rfl)
    | fault f => rw [hostStep_cycle_of_fault hc]; exact h
    | refused r => exact absurd hc (cycle_not_refused s r)
  | setKey k down => exact h.setDevices _ s.draw
  | clearDrawFlag => exact h.setDevices s.keys false
  | _ => exact h

/-- R95 item 1 at a RET. -/
theorem ReachableFacts.step_ret {ign : BitVec 8} (hcur : current s = some (.ret ign)) :
    step s = .fault (.stackUnderflow s.pc (encode (.ret ign))) := by
  obtain ⟨op, hf, hd⟩ := current_eq_some_iff.1 hcur
  have he := execRet_empty ign (congrArg Fin.val h.sp_zero)
  exact step_fault_iff.2 (cycle_fault_iff.2 (.inr (.inr ⟨op, _, hf, hd, he⟩)))

end Facts

theorem Reachable.facts {s : State} (h : Reachable s) : ReachableFacts s := by
  induction h with
  | powerOn s => exact reachableFacts_resetOp _
  | op o _ ih => exact ih.of_hostStep o

/-- Settles O49: RET cannot complete, and every other instruction keeps each fact. -/
theorem stepKeepsReachableFacts : Obligations.StepKeepsReachableFacts := fun _ _ h => h.of_step

/-- Settles O50: by induction on the host's operations, then from the facts `ST = 0` and `SP = 0`. -/
theorem reachableStatesKeepTheirFacts : Obligations.ReachableStatesKeepTheirFacts := fun _ hreach =>
  have h := hreach.facts
  ⟨h, fun _ hc => (cycle_next_sound hc).1.trans h.st_zero, fun _ => h.step_ret⟩

/-! ### Sprites that cannot fault -/

/-- Settles O29: the greatest index of a sprite on the screen is 63 + 31 * 64 = 2047. -/
theorem onScreenSpritesDrawWithoutFault : Obligations.OnScreenSpritesDrawWithoutFault := by
  intro x y n s _ hi hx hy
  have hfits : DrwFits x y n s := fun r hr => ⟨by omega, fun c hc _ => by omega⟩
  exact ⟨_, exec_drw_next_iff.2 ⟨hfits, rfl⟩⟩

/-! ### What `Reset` leaves -/

/-- Settles O42: `Reset` writes every element but the two it keeps. -/
theorem resetIsCanonicalAndIdempotent : Obligations.ResetIsCanonicalAndIdempotent := fun _ => ⟨rfl, rfl, rfl⟩

section WriteLoop

variable {ι : Type} (l : List ι) (addr : ι → Fin 4096) (val : ι → Byte)

theorem foldl_memWrite_wf {s : State} (hs : s.mem.wf = true) :
    (l.foldl (fun t j => memWrite (addr j) (val j) t) s).mem.wf = true := by
  induction l generalizing s with
  | nil => exact hs
  | cons j l ih => exact ih (memWrite_wf _ _ hs)

/-- A loop whose byte depends on the address only leaves that byte at each address it visits, in whatever order. -/
theorem foldl_memWrite_read {g : Nat → Byte} (hval : ∀ j, val j = g (addr j).val) (s : State) (x : Nat) :
    (l.foldl (fun t j => memWrite (addr j) (val j) t) s).mem.read x =
      if ∃ j ∈ l, (addr j).val = x then g x else s.mem.read x := by
  induction l generalizing s with
  | nil => simp
  | cons j l ih =>
    rw [List.foldl_cons, ih, memWrite_mem, Memory.read_write, hval]
    by_cases hj : x = (addr j).val
    · simp [hj]
    · simp [hj, Ne.symm hj]

end WriteLoop

/-- A canonical memory lists no address beyond its end. -/
theorem Memory.read_of_le {m : Memory} (hm : m.wf = true) {a : Nat} (ha : 4096 ≤ a) : m.read a = Memory.initial a := by
  by_contra hne
  exact absurd ((m.wf_iff.1 hm).2 _ (Memory.mem_of_read_ne_initial hne)).1 (Nat.not_lt.2 ha)

/-- Settles O43: both memories are canonical, and they read equal in the font, above it, and beyond the last address. -/
theorem resetLoopsLeaveResetMemory : Obligations.ResetLoopsLeaveResetMemory := by
  intro s hs
  have hzero := foldl_memWrite_wf (List.finRange 4096) (fun a => a) (fun _ => 0x00#8) hs
  refine canonicalMemoriesWithEqualBytesAreEqual _ _
    (foldl_memWrite_wf (List.finRange 80) (Fin.castLE (by decide)) (fun a => Config.font[a.val]) hzero) rfl fun x => ?_
  rw [foldl_memWrite_read (List.finRange 80) (Fin.castLE (by decide)) (fun a => Config.font[a.val]) (g := Memory.initial)
    (fun a => (Memory.initial_font a.isLt).symm)]
  split
  · rfl
  · next hfont =>
    have hx : 80 ≤ x := Nat.le_of_not_lt fun hlt => hfont ⟨⟨x, hlt⟩, List.mem_finRange _, rfl⟩
    rw [foldl_memWrite_read (List.finRange 4096) (fun a => a) (fun _ => 0x00#8) (g := fun _ => 0x00#8) (fun _ => rfl)]
    split
    · exact (Memory.initial_zero hx).symm
    · next hmem =>
      exact Memory.read_of_le hs (Nat.le_of_not_lt fun hlt => hmem ⟨⟨x, hlt⟩, List.mem_finRange _, rfl⟩)

/-! ### The jump to itself -/

theorem encode_jp_eq (nnn : Addr12) : encode (.jp nnn) = 0x1000#16 + zext16 nnn := by
  apply BitVec.eq_of_toNat_eq
  have := nnn.isLt
  rw [encode_jp_toNat, BitVec.toNat_add, zext16_toNat]
  simp only [BitVec.toNat_ofNat]
  omega

theorem zext16_setWidth {w : Word} (h : w.toNat ≤ 0xFFF) : zext16 (w.setWidth 12) = w := by
  apply BitVec.eq_of_toNat_eq
  rw [zext16_toNat, BitVec.toNat_setWidth]
  omega

/-- A jump to itself, told from the decoded instruction. -/
theorem selfJump_iff {s : State} : SelfJump s ↔ ∃ nnn, current s = some (.jp nnn) ∧ zext16 nnn = s.pc := by
  constructor
  · rintro ⟨hpc, hword⟩
    have hz := zext16_setWidth (show s.pc.toNat ≤ 0xFFF by omega)
    have hop : fetch s = .ok (encode (.jp (s.pc.setWidth 12))) := by rw [fetch_in hpc, hword, encode_jp_eq, hz]
    exact ⟨_, current_eq_some hop (decodeWord_encode _), hz⟩
  · rintro ⟨nnn, hcur, hz⟩
    obtain ⟨op, hf, hd⟩ := current_eq_some_iff.1 hcur
    obtain ⟨hpc, hword⟩ := fetch_ok_iff.1 hf
    exact ⟨hpc, by rw [hword, ← encode_of_decodeWord hd, encode_jp_eq, hz]⟩

/-- A jump to itself only ticks. -/
theorem step_of_selfJump {s : State} (h : SelfJump s) : step s = .next (tick s) := by
  obtain ⟨nnn, hcur, hz⟩ := selfJump_iff.1 h
  obtain ⟨op, hf, hd⟩ := current_eq_some_iff.1 hcur
  rw [step_decoded hf hd, exec_jp, execJp, hz]
  rfl

theorem tick_eq_self_iff {s : State} : tick s = s ↔ s.dt = 0x00#8 ∧ s.st = 0x00#8 := by
  rw [← countdown_eq_self_iff, ← countdown_eq_self_iff s.st]
  constructor
  · exact fun h => ⟨(congrArg State.dt h :), (congrArg State.st h :)⟩
  · rintro ⟨hdt, hst⟩
    rw [tick, State.setTimers, hdt, hst]

/-- A fixed point keeps `PC` and `SP`: RET moves `SP`, and of the others only JP can keep `PC`. -/
theorem selfJump_of_fixedPoint {s : State} (h : FixedPoint s) : SelfJump s := by
  obtain ⟨op, i, u, hf, hd, he, hs⟩ := step_next_iff.1 h
  obtain rfl := exec_next_eq_afterExec he
  have hpc : s.pc = (afterExec i s).pc := (congrArg State.pc hs :)
  cases i with
  | jp nnn => exact selfJump_iff.2 ⟨nnn, current_eq_some hf hd, hpc.symm⟩
  | ret ign =>
    have hsp : s.sp.val = s.sp.val - 1 := congrArg (fun t => t.sp.val) hs
    have := sp_pos_of_exec_ret he
    omega
  | _ =>
    rw [afterExec_pc s (by simp) (by simp)] at hpc
    exact absurd hpc.symm (pc_add_two_ne s.pc)

/-- Settles O51: a fixed point is a jump to itself, which only ticks; the tick changes nothing iff both timers are 0. -/
theorem fixedPointsAreTheSettledStates : Obligations.FixedPointsAreTheSettledStates := by
  intro s
  constructor
  · intro h
    have hjump := selfJump_of_fixedPoint h
    obtain ⟨hdt, hst⟩ := tick_eq_self_iff.1 (Host.Outcome.next.inj ((step_of_selfJump hjump).symm.trans h))
    exact ⟨hdt, hst, hjump⟩
  · rintro ⟨hdt, hst, hjump⟩
    rw [FixedPoint, step_of_selfJump hjump, tick_eq_self_iff.2 ⟨hdt, hst⟩]

/-- Settles O52: by induction on the number of steps, each of which ticks and keeps the jump. -/
theorem selfJumpOnlyCountsTimersDown : Obligations.SelfJumpOnlyCountsTimersDown := by
  intro s h n
  induction n generalizing s with
  | zero => simp
  | succ n ih =>
    have hjump : SelfJump (tick s) := h
    rw [runFrom_succ_next (step_of_selfJump h), ih (tick s) hjump, tick_dt, tick_st, countdown_toNat, countdown_toNat,
      Nat.sub_sub, Nat.sub_sub, Nat.add_comm 1 n]
    rfl

/-! ### Runs without a jump -/

/-- A completed step of an instruction other than JP and RET fetched a whole word and moved past it. -/
theorem step_pc_of_no_jump {s t : State} (h : step s = .next t) (hjp : ∀ nnn, current s ≠ some (.jp nnn))
    (hret : ∀ ign, current s ≠ some (.ret ign)) : s.pc.toNat ≤ 0xFFE ∧ t.pc.toNat = s.pc.toNat + 2 := by
  obtain ⟨op, i, u, hf, hd, he, rfl⟩ := step_next_iff.1 h
  obtain ⟨hpc, -⟩ := fetch_ok_iff.1 hf
  obtain rfl := exec_next_eq_afterExec he
  have hcur := current_eq_some hf hd
  refine ⟨hpc, ?_⟩
  rw [tick_pc, afterExec_pc s (fun nnn hi => hjp nnn (hi ▸ hcur)) (fun ign hi => hret ign (hi ▸ hcur)), State.advance_pc,
    pc_add_two_toNat (by omega)]

/-- Settles O53: by induction on the run's length; its last step fetched at `PC + 2 (n - 1)`, which is at most 0xFFE. -/
theorem straightLineRunsAreBounded : Obligations.StraightLineRunsAreBounded := by
  intro n s t hrun hcur
  suffices h : n ≤ 2048 ∧ t.pc.toNat = s.pc.toNat + 2 * n from ⟨h.1, fun _ => h.2⟩
  induction n generalizing t with
  | zero =>
    obtain rfl := Host.Outcome.next.inj hrun
    exact ⟨by omega, rfl⟩
  | succ n ih =>
    obtain ⟨u, hu, hstep⟩ := runFrom_succ_last.1 hrun
    obtain ⟨-, hupc⟩ := ih u hu fun k w hk => hcur k w (by omega)
    obtain ⟨hjp, hret⟩ := hcur n u (Nat.lt_succ_self n) hu
    obtain ⟨hle, htpc⟩ := step_pc_of_no_jump hstep hjp hret
    omega

/-! ### Never-loaded memory -/

/-- A zero word executes as CLS. -/
theorem step_of_zero_word {s : State} (hpc : s.pc.toNat ≤ 0xFFE) (hhi : s.mem.read s.pc.toNat = 0x00#8)
    (hlo : s.mem.read (s.pc.toNat + 1) = 0x00#8) : step s = .next (tick ((s.setFb 0#2048).raiseDraw).advance) := by
  have hf : fetch s = .ok 0x0000#16 := by rw [fetch_in hpc, hhi, hlo]; rfl
  have hd : decodeWord 0x0000#16 = some (.cls 0x00#8) := decodeWord_of_and_F00F_cls rfl
  rw [step_decoded hf hd, exec_cls, execCls]
  rfl

/-- Settles O55: the one outcome of CLS, ticked. -/
theorem zeroWordsExecuteAsCls : Obligations.ZeroWordsExecuteAsCls := fun s hpc hhi hlo =>
  ⟨_, step_of_zero_word hpc hhi hlo, fun k _ => Framebuffer.cell_zero k, pc_add_two_toNat (w := s.pc) (by omega),
    countdown_toNat s.dt, countdown_toNat s.st, rfl⟩

/-- The step after a run. -/
theorem runFrom_succ_of_next {n : Nat} {s u : State} (h : runFrom n s = .next u) : runFrom (n + 1) s = step u := by
  cases hu : step u with
  | next t => exact runFrom_succ_last.2 ⟨u, h, hu⟩
  | fault f =>
    induction n generalizing s with
    | zero =>
      obtain rfl := Host.Outcome.next.inj h
      exact runFrom_succ_fault hu 0
    | succ n ih =>
      obtain ⟨w, hw, hrun⟩ := runFrom_succ_iff.1 h
      rw [runFrom_succ_next hw, ih hrun]
  | refused r => exact absurd hu (step_not_refused u r)

/-- The reset state after `n` CLS cycles (`runFrom_reset_eq_clearing`). -/
def clearing (n : Nat) : State :=
  { State.reset with pc := BitVec.ofNat 16 (0x200 + 2 * n), draw := decide (0 < n) }

theorem clearing_pc_toNat {n : Nat} (h : n ≤ 1792) : (clearing n).pc.toNat = 0x200 + 2 * n :=
  (BitVec.toNat_ofNat _ _).trans (Nat.mod_eq_of_lt (by omega))

theorem step_clearing {n : Nat} (h : n < 1792) : step (clearing n) = .next (clearing (n + 1)) := by
  have hpc := clearing_pc_toNat h.le
  have hzero (a : Nat) (ha : 80 ≤ a) : (clearing n).mem.read a = 0x00#8 := Memory.initial_zero ha
  rw [step_of_zero_word (by omega) (hzero _ (by omega)) (hzero _ (by omega))]
  have hnext : (clearing n).pc + 2#16 = (clearing (n + 1)).pc := by
    apply BitVec.eq_of_toNat_eq
    rw [pc_add_two_toNat (by omega), hpc, clearing_pc_toNat h]
    omega
  refine congrArg Host.Outcome.next (State.eq_of_fields rfl rfl hnext rfl rfl rfl rfl rfl rfl rfl ?_)
  exact (decide_eq_true n.succ_pos).symm

theorem runFrom_reset_eq_clearing {n : Nat} (h : n ≤ 1792) : runFrom n State.reset = .next (clearing n) := by
  induction n with
  | zero => rfl
  | succ n ih => rw [runFrom_succ_of_next (ih (by omega)), step_clearing h]

/-- Settles O54: by induction on the number of CLS cycles; after 1792 of them `PC` has left memory. -/
theorem emptyMachineClearsUntilItLeavesMemory : Obligations.EmptyMachineClearsUntilItLeavesMemory := by
  refine ⟨fun n => runFrom_reset_eq_clearing, ?_⟩
  have hout : 0xFFE < (clearing 1792).pc.toNat := by decide
  rw [runFrom_succ_of_next (runFrom_reset_eq_clearing (Nat.le_refl 1792)), step_fault_iff,
    cycle_fetch_fault (fetch_out hout)]
  rfl

end Sys2Proof.Machine
end
